-- ==== Sys2Proof/Word.lean ====
section
/-! DEFINITION. The value types of the codec's ports (spec/00_scope.md R5, R7, R8; spec/10_state.md R16, R17).

Every value is an unsigned bit vector of the width its port has, bit 0 the least significant; a byte
buffer is the ordered sequence of its bytes (spec/20_memory.md R30). The fixed code parameters of R5 are
these widths: DATA_BITS 4, CONTAINER_BITS 8, SYNDROME_BITS 3, BYTE_BITS 8. -/

namespace Sys2Proof

/-- A 1-bit output flag (R17, R21). -/
abbrev Flag := BitVec 1

/-- The 3-bit operation selector `op` (R16, R53). -/
abbrev Selector := BitVec 3

/-- The 3-bit syndrome `s` (R48). -/
abbrev Syndrome := BitVec 3

/-- A 4-bit data value, d1 its most significant bit (R43). -/
abbrev Nibble := BitVec 4

/-- An 8-bit data value (R5, BYTE_BITS). -/
abbrev Byte := BitVec 8

/-- A stored codeword: 7 coded bits in an 8-bit container, bit 7 unused (R44). -/
abbrev Codeword := BitVec 8

/-- A byte buffer, `IN` or `OUT`: index 0 is the first byte (R29, R30). -/
abbrev Buffer := List Byte

end Sys2Proof
end

