-- ==== Sys2Proof/Config.lean ====
section
/-! DEFINITION. What an implementation fixes and the spec leaves open: the one parameter `MAX_BUF_LEN`
(spec/00_scope.md R6; spec/92_eei_decisions.md D14). -/

namespace Sys2Proof

/-- The open parameter of the spec. `maxBufLen` is `MAX_BUF_LEN`: `some m` bounds a buffer at `m` bytes,
`none` is the unbounded choice (R6: "a natural number or unbounded"). The model takes it as an argument:
a state carries a `Config` that no step changes, and a claim about every state holds for every value
of it (notes/assumptions/3). -/
structure Config where
  maxBufLen : Option Nat
  deriving DecidableEq, Repr

/-- `len ≤ MAX_BUF_LEN`, the condition on the operand `IN` of ENCBUF and DECBUF (R69, R70). -/
def Config.admits (c : Config) (len : Nat) : Bool :=
  match c.maxBufLen with
  | none => true
  | some m => decide (len ≤ m)

end Sys2Proof
end

