-- ==== Sys2Proof/Syntax.lean ====
section
/-! DEFINITION. The operations of the block with their operands (spec/30_encoding.md R53, R54), and the
record of input ports on which the host presents one (spec/10_state.md R16). -/

namespace Sys2Proof

/-- One operation with the operands it reads (R54): one constructor per row of spec/opcode_table.json. -/
inductive Instr where
  /-- ENC4: encode the nibble `n` (R60). -/
  | enc4 (n : Nibble)
  /-- ENC8: encode the byte `b` into a codeword pair (R61). -/
  | enc8 (b : Byte)
  /-- ENCBUF: encode the buffer `IN` (R69). -/
  | encbuf (inBuf : Buffer)
  /-- SYN: the syndrome of the codeword `c` (R64). -/
  | syn (c : Codeword)
  /-- DEC7: decode the codeword `c` with single-bit correction (R65). -/
  | dec7 (c : Codeword)
  /-- DEC16: decode the codeword pair `c_hi`, `c_lo` into a byte (R67). -/
  | dec16 (cHi cLo : Codeword)
  /-- DECBUF: decode the buffer `IN` (R70). -/
  | decbuf (inBuf : Buffer)
  /-- The reserved selector 0b111, which reads no operand (R55, R76). -/
  | rsv7
  deriving DecidableEq, Repr

/-- The input ports of the block as the host presents them with one operation (R16). Every port is there
at its width; the selector alone says which of them are read (R56), and what stands on the others
is never looked at (notes/assumptions/1). -/
structure Presented where
  op    : Selector
  n     : Nibble
  b     : Byte
  c     : Codeword
  cHi   : Codeword
  cLo   : Codeword
  inBuf : Buffer
  deriving DecidableEq, Repr

end Sys2Proof
end

