-- ==== Sys2Proof/WellFormed.lean ====
section
/-! DEFINITION. The one check on an operation that its types do not already make: a buffer operand is at
most `MAX_BUF_LEN` bytes long (spec/00_scope.md R6; spec/42_buffer.md R69, R70). Every other operand is
legal at every value of its width (spec/30_encoding.md R55). -/

namespace Sys2Proof

/-- The operation can be presented to an implementation with parameters `c`. -/
def Instr.wf (c : Config) : Instr → Bool
  | .enc4 _ => true
  | .enc8 _ => true
  | .encbuf inBuf => c.admits inBuf.length
  | .syn _ => true
  | .dec7 _ => true
  | .dec16 _ _ => true
  | .decbuf inBuf => c.admits inBuf.length
  | .rsv7 => true

end Sys2Proof
end

