-- ==== Sys2Proof/Decode.lean ====
section
/-! DEFINITION. Decoding a presented operation and encoding one (spec/30_encoding.md R53 to R56, R59).

The block fetches nothing (spec/20_memory.md R41): an operation is a 3-bit selector and operand ports, and
the selector alone chooses which operands are read. Decoding is total on the ports. Only a selector that
comes as a number (a word of the opcode table) can fail, when it is no 3-bit value. -/

namespace Sys2Proof

/-- Why a number is no selector word. -/
inductive DecodeError where
  /-- The word has fewer bits than the selector. Raised by `selectorOfWord`; safe. -/
  | wordTooShort (nbits : Nat)
  /-- The value does not fit the 3-bit port `op`. Raised by `selectorOfWord`; safe. -/
  | selectorTooWide (w : Nat)
  deriving DecidableEq, Repr

/-- The operation that a selector names, with its operands taken whole from their ports: the table of
R53 row by row, the operand set of R54. -/
def decode (p : Presented) : Instr :=
  match p.op.toFin with
  | 0 => .enc4 p.n
  | 1 => .enc8 p.b
  | 2 => .encbuf p.inBuf
  | 3 => .syn p.c
  | 4 => .dec7 p.c
  | 5 => .dec16 p.cHi p.cLo
  | 6 => .decbuf p.inBuf
  | 7 => .rsv7

/-- The ports with selector `op`, zero on every fixed-width operand port and an empty `IN`. -/
def Presented.idle (op : Selector) : Presented :=
  { op := op, n := 0, b := 0, c := 0, cHi := 0, cLo := 0, inBuf := [] }

/-- The ports that present an operation: its selector (R53) and its operands on their ports (R54). The
ports it does not read carry zero; no rule reads them (notes/assumptions/8). -/
def encode : Instr → Presented
  | .enc4 n => { Presented.idle 0b000 with n := n }
  | .enc8 b => { Presented.idle 0b001 with b := b }
  | .encbuf inBuf => { Presented.idle 0b010 with inBuf := inBuf }
  | .syn c => { Presented.idle 0b011 with c := c }
  | .dec7 c => { Presented.idle 0b100 with c := c }
  | .dec16 cHi cLo => { Presented.idle 0b101 with cHi := cHi, cLo := cLo }
  | .decbuf inBuf => { Presented.idle 0b110 with inBuf := inBuf }
  | .rsv7 => Presented.idle 0b111

/-- A selector word of `nbits` bits with value `w`, as spec/opcode_table.json numbers it: the selector is
its bits 2 to 0, and a value above 7 is no selector. -/
def selectorOfWord (nbits w : Nat) : Except DecodeError Selector :=
  if nbits < 3 then .error (.wordTooShort nbits)
  else if w < 8 then .ok (BitVec.ofNat 3 w)
  else .error (.selectorTooWide w)

/-- The operation of an opcode-table word: its selector presented with zero operands, which the table
gives no bits (notes/assumptions/7). -/
def decodeTableWord (nbits w : Nat) : Option Instr :=
  match selectorOfWord nbits w with
  | .ok op => some (decode (.idle op))
  | .error _ => none

end Sys2Proof
end

