-- ==== Sys2Proof/Machine/State.lean ====
section
/-! DEFINITION. The state of the machine (spec/10_state.md).

The block itself stores nothing (R15, R18, R20 to R23). What a model of a run keeps is the three
bookkeeping fields of R24; beside them stand the host's list of operations, which is the run itself (R19),
and the parameter `MAX_BUF_LEN`, which no step changes (spec/00_scope.md R6). -/

namespace Sys2Proof.Machine

/-- A non-OK status (spec/60_exceptions.md R74). The value 0b11 is never produced and has no constructor
(spec/93_implementation_defined.md I8). -/
inductive ErrorStatus where
  /-- The input buffer of DECBUF has odd length (R75). -/
  | lengthMismatch
  /-- The selector is the reserved value 0b111 (R76). -/
  | illegalOp
  deriving DecidableEq, Repr

/-- The `status` output of an operation (R74). -/
inductive Status where
  /-- The operation completed and drove its data outputs. -/
  | ok
  /-- The operation ended with a non-OK status and drove no data output (R77). -/
  | raised (e : ErrorStatus)
  deriving DecidableEq, Repr

/-- The output ports of the block (R17). -/
inductive OutPort where
  | status | cw | cwHi | cwLo | s | nOut | corrected | bOut | correctedHi | correctedLo | outBuf
  deriving DecidableEq, Repr

/-- A value read on an output port, by the port's width (R17). -/
inductive PortValue where
  | status (v : Status)
  | flag (v : Flag)
  | syndrome (v : Syndrome)
  | nibble (v : Nibble)
  | byte (v : Byte)
  | buffer (v : Buffer)
  deriving DecidableEq, Repr

/-- The Result of one operation: its status and the data ports it drove. A port the operation did not
drive holds no value and is `none` (R17, R26). -/
structure Result where
  status      : Status
  cw          : Option Codeword := none
  cwHi        : Option Codeword := none
  cwLo        : Option Codeword := none
  s           : Option Syndrome := none
  nOut        : Option Nibble := none
  corrected   : Option Flag := none
  bOut        : Option Byte := none
  correctedHi : Option Flag := none
  correctedLo : Option Flag := none
  outBuf      : Option Buffer := none
  deriving DecidableEq, Repr

/-- Why the model stops with a fault. -/
inductive Fault where
  /-- The run met the non-OK status `e` earlier and has no further step (spec/10_state.md R25). Raised by
  `step` and by every meaning in a state whose `fault` is set; safe: the block itself would go on. -/
  | runFaulted (e : ErrorStatus)
  /-- A `MemRead` outside the input buffer (spec/20_memory.md R31). Raised by `memRead`; safe, and no
  operation reaches it. -/
  | readOutOfRange (i : Nat)
  /-- A `MemWrite` beyond the end of the output buffer, which would leave a gap (R32). Raised by
  `memWrite`; safe, and no operation reaches it. -/
  | writeOutOfOrder (j : Nat)
  /-- A read of an output port that holds no value (spec/10_state.md R26). Raised by `Result.read` and
  `State.readOut`; safe. -/
  | undrivenPort (p : OutPort)
  deriving DecidableEq, Repr

/-- Why the model gives no next state although nothing went wrong. -/
inductive Refusal where
  /-- An operation without a meaning yet. Raised by `exec`'s refused arms, of which none is left; safe. -/
  | notModelled (mnemonic : String)
  /-- The host's list is exhausted: the run has ended and nothing is presented (R25). Raised by `step`;
  safe. -/
  | runEnded
  /-- A buffer operand longer than `MAX_BUF_LEN`, which cannot be presented (spec/42_buffer.md R69;
  spec/93_implementation_defined.md I11). Raised by the meanings of ENCBUF and DECBUF; safe. -/
  | bufferTooLong (len : Nat)
  deriving DecidableEq, Repr

/-- The state of a run. `run` is the host's list of operations with their operands, performed in order
(R19); `opIndex`, `log` and `fault` are the bookkeeping fields of R24; `config` is the parameter of R6. -/
structure State where
  config  : Config
  run     : List Presented
  opIndex : Nat
  log     : List Result
  fault   : Option ErrorStatus
  deriving DecidableEq, Repr

/-- The reset values of R27. The host has presented nothing yet, so `run` is empty (notes/assumptions/7),
and `MAX_BUF_LEN`, for which the spec gives no value, is unbounded (notes/assumptions/3). -/
def State.reset : State :=
  { config := { maxBufLen := none }, run := [], opIndex := 0, log := [], fault := none }

end Sys2Proof.Machine
end

