-- ==== Sys2Proof/Machine/Layout.lean ====
section
/-! DEFINITION. The bit layout of a stored codeword as one transform used in both directions
(spec/00_scope.md R14; spec/30_encoding.md R43 to R46). -/

namespace Sys2Proof.Machine

/-- The seven coded bits, in the order of R45, most significant first. -/
inductive CodedBit where
  | p1 | p2 | d1 | p3 | d2 | d3 | d4
  deriving DecidableEq, Repr

/-- The position of a coded bit, counted from 1 at the most significant coded bit: the table of R45. -/
def CodedBit.position : CodedBit → Nat
  | .p1 => 1
  | .p2 => 2
  | .d1 => 3
  | .p3 => 4
  | .d2 => 5
  | .d3 => 6
  | .d4 => 7

/-- Position `k` is container bit `7 − k` (R46). -/
def containerBit (k : Nat) : Nat := 7 - k

/-- The mask with only container bit `7 − k` set, for position `k`. -/
def positionMask (k : Nat) : Codeword := 0x01#8 <<< containerBit k

/-- The data bits d1 to d4 of a nibble (R43). -/
structure DataBits where
  d1 : Bool
  d2 : Bool
  d3 : Bool
  d4 : Bool
  deriving DecidableEq, Repr

/-- The coded bits of a codeword (R45). -/
structure CodedBits where
  p1   : Bool
  p2   : Bool
  p3   : Bool
  data : DataBits
  deriving DecidableEq, Repr

/-- `n[3]`, `n[2]`, `n[1]`, `n[0]` are d1, d2, d3, d4 (R43). -/
def dataBits (n : Nibble) : DataBits :=
  { d1 := n.getLsbD 3, d2 := n.getLsbD 2, d3 := n.getLsbD 1, d4 := n.getLsbD 0 }

/-- The nibble `{d1, d2, d3, d4}` (R43). -/
def nibbleOf (d : DataBits) : Nibble :=
  BitVec.ofBool d.d1 ++ BitVec.ofBool d.d2 ++ BitVec.ofBool d.d3 ++ BitVec.ofBool d.d4

/-- One coded bit at its place in the container, all other bits zero. -/
def place (k : CodedBit) (v : Bool) : Codeword :=
  if v then positionMask k.position else 0

/-- `pack` of R45: each coded bit at its place; container bit 7 is 0. -/
def pack (w : CodedBits) : Codeword :=
  place .p1 w.p1 ||| place .p2 w.p2 ||| place .d1 w.data.d1 ||| place .p3 w.p3 |||
    place .d2 w.data.d2 ||| place .d3 w.data.d3 ||| place .d4 w.data.d4

/-- The coded bit `k` of a container. -/
def codedBit (cw : Codeword) (k : CodedBit) : Bool :=
  cw.getLsbD (containerBit k.position)

/-- `unpack` of R45: the coded bits of a container; bit 7 is not read. -/
def unpack (cw : Codeword) : CodedBits :=
  { p1 := codedBit cw .p1, p2 := codedBit cw .p2, p3 := codedBit cw .p3,
    data := { d1 := codedBit cw .d1, d2 := codedBit cw .d2, d3 := codedBit cw .d3, d4 := codedBit cw .d4 } }

end Sys2Proof.Machine
end

