-- ==== Sys2Proof/Machine/Operands.lean ====
section
/-! DEFINITION. The operand forms that are not taken whole: a byte as two nibbles (spec/30_encoding.md R51).
All other operands are unsigned values read whole from their ports (R54). -/

namespace Sys2Proof.Machine

/-- The high nibble `b[7:4]` (R51). -/
def highNibble (b : Byte) : Nibble := b.extractLsb 7 4

/-- The low nibble `b[3:0]` (R51). -/
def lowNibble (b : Byte) : Nibble := b.extractLsb 3 0

/-- The byte `{n_hi, n_lo}` (R51). -/
def joinNibbles (hi lo : Nibble) : Byte := hi ++ lo

end Sys2Proof.Machine
end

