-- ==== Sys2Proof/Machine/Flags.lean ====
section
/-! DEFINITION. The computations behind the output flags: parity bits, check bits, the syndrome and the flag
`corrected` (spec/30_encoding.md R47, R48; spec/10_state.md R21). -/

namespace Sys2Proof.Machine

/-- p1 = d1⊕d2⊕d4 (R47). -/
def parity1 (d : DataBits) : Bool := d.d1 ^^ d.d2 ^^ d.d4

/-- p2 = d1⊕d3⊕d4 (R47). -/
def parity2 (d : DataBits) : Bool := d.d1 ^^ d.d3 ^^ d.d4

/-- p3 = d2⊕d3⊕d4 (R47). -/
def parity3 (d : DataBits) : Bool := d.d2 ^^ d.d3 ^^ d.d4

/-- c1 = p1⊕d1⊕d2⊕d4 on the received bits (R48). -/
def check1 (w : CodedBits) : Bool := w.p1 ^^ parity1 w.data

/-- c2 = p2⊕d1⊕d3⊕d4 on the received bits (R48). -/
def check2 (w : CodedBits) : Bool := w.p2 ^^ parity2 w.data

/-- c3 = p3⊕d2⊕d3⊕d4 on the received bits (R48). -/
def check3 (w : CodedBits) : Bool := w.p3 ^^ parity3 w.data

/-- s = {c3, c2, c1} (R48). -/
def syndrome (c : Codeword) : Syndrome :=
  BitVec.ofBool (check3 (unpack c)) ++ BitVec.ofBool (check2 (unpack c)) ++ BitVec.ofBool (check1 (unpack c))

/-- `corrected` is 1 exactly when the syndrome is nonzero (R21, R65). -/
def correctedFlag (c : Codeword) : Flag := if syndrome c = 0 then 0 else 1

end Sys2Proof.Machine
end

