-- ==== Sys2Proof/Machine/Ops.lean ====
section
/-! DEFINITION. The shared operations: buffer access (spec/20_memory.md R31, R32), the counted loop and
`raise` of the pseudocode (spec/00_scope.md R9; spec/60_exceptions.md R77), reading an output port
(spec/10_state.md R26), fetching the presented operation (R19) and recording its Result (R25).

There is no return from an exception beside `raise`: the block has none and needs none
(spec/60_exceptions.md R83). -/

namespace Sys2Proof.Machine

/-- `MemRead(IN, i, 1)`: the byte `IN[i]`, defined for `i < len(IN)`; any other index is a fault of the
model (R31). -/
def memRead (inBuf : Buffer) (i : Nat) : Except Fault Byte :=
  match inBuf[i]? with
  | some b => .ok b
  | none => .error (.readOutOfRange i)

/-- `MemWrite(OUT, j, 1, v)`: sets `OUT[j]`; a write at `j = len(OUT)` appends the byte (R32). A write past
the end would leave a gap, which no rule does, and is a fault of the model (notes/assumptions/10). -/
def memWrite (out : Buffer) (j : Nat) (v : Byte) : Except Fault Buffer :=
  if j < out.length then .ok (out.set j v)
  else if j = out.length then .ok (out ++ [v])
  else .error (.writeOutOfOrder j)

/-- `for i in 0 .. m-1`: the body for each `i` in increasing order; an empty range runs zero times (R9). -/
def forUpTo (body : Nat → Buffer → Except Fault Buffer) : Nat → Buffer → Except Fault Buffer
  | 0, out => .ok out
  | m + 1, out => (forUpTo body m out).bind (body m)

/-- `raise e`: the operation ends with a non-OK status and drives no data port (R77). -/
def raise (e : ErrorStatus) : Result := { status := .raised e }

/-- The non-OK value of a status, if it is one. -/
def Status.error? : Status → Option ErrorStatus
  | .ok => none
  | .raised e => some e

/-- The 2-bit encoding of a status (R74). -/
def Status.code : Status → BitVec 2
  | .ok => 0b00
  | .raised .lengthMismatch => 0b01
  | .raised .illegalOp => 0b10

/-- A driven port's value; a port that holds no value faults (R26). -/
def readPort (p : OutPort) (v : Option PortValue) : Except Fault PortValue :=
  match v with
  | some x => .ok x
  | none => .error (.undrivenPort p)

/-- Reading an output port of a Result (R17, R26). -/
def Result.read (r : Result) (p : OutPort) : Except Fault PortValue :=
  readPort p <|
    match p with
    | .status => some (.status r.status)
    | .cw => r.cw.map .byte
    | .cwHi => r.cwHi.map .byte
    | .cwLo => r.cwLo.map .byte
    | .s => r.s.map .syndrome
    | .nOut => r.nOut.map .nibble
    | .corrected => r.corrected.map .flag
    | .bOut => r.bOut.map .byte
    | .correctedHi => r.correctedHi.map .flag
    | .correctedLo => r.correctedLo.map .flag
    | .outBuf => r.outBuf.map .buffer

/-- Reading an output port of the block after the latest operation. Before the first operation no port
holds a value, `status` included (R27; notes/assumptions/9). -/
def State.readOut (s : State) (p : OutPort) : Except Fault PortValue :=
  match s.log.getLast? with
  | some r => r.read p
  | none => .error (.undrivenPort p)

/-- The operation the host presents next: position `opIndex` of the run (R19). -/
def State.fetch (s : State) : Option Presented := s.run[s.opIndex]?

/-- The bookkeeping of R25 for a completed operation with Result `r`: the log grows by `r`, `opIndex` by 1,
and a non-OK status becomes the sticky fault (spec/60_exceptions.md R84). -/
def State.record (s : State) (r : Result) : State :=
  { s with
    log := s.log ++ [r]
    opIndex := s.opIndex + 1
    fault := match r.status.error? with
      | some e => some e
      | none => s.fault }

/-- The step of R25 for an operation whose rule gives `r`: a faulted run has no step, and otherwise the
Result is recorded. -/
def conclude (r : Except Fault Result) (s : State) : Host.Outcome State Fault Refusal :=
  match s.fault with
  | some e => .fault (.runFaulted e)
  | none =>
    match r with
    | .ok r => .next (s.record r)
    | .error f => .fault f

/-- The step of R25 for an operation on the buffer `inBuf`: one longer than `MAX_BUF_LEN` cannot be
presented and is refused (R69; spec/93_implementation_defined.md I11; notes/assumptions/4). -/
def concludeBuffer (inBuf : Buffer) (r : Except Fault Result) (s : State) : Host.Outcome State Fault Refusal :=
  match s.fault with
  | some e => .fault (.runFaulted e)
  | none =>
    if s.config.admits inBuf.length then conclude r s
    else .refused (.bufferTooLong inBuf.length)

/-- The run of `run` before its first operation: the reset bookkeeping with the host's list presented
(R19, R27). -/
def State.ofRun (c : Config) (run : List Presented) : State :=
  { State.reset with config := c, run := run }

end Sys2Proof.Machine
end

