-- ==== Sys2Proof/Machine/Decoder.lean ====
section
/-! DEFINITION. The decoder and syndrome operations SYN, DEC7 and DEC16 (spec/41_decoder.md R64, R65, R67). -/

namespace Sys2Proof.Machine

/-- The codeword after correction: a nonzero syndrome `s` flips container bit `7 − s`, a zero one nothing
(R49, R65; the reading spec/90_conflicts.md C1 keeps). -/
def correctCodeword (c : Codeword) : Codeword :=
  if syndrome c = 0 then c else c ^^^ positionMask (syndrome c).toNat

/-- `n_out`: the data bits of the corrected codeword (R65). -/
def decodeNibble (c : Codeword) : Nibble :=
  nibbleOf (unpack (correctCodeword c)).data

/-- `b_out` of DEC16: the nibble of `c_hi` in bits 7 to 4 (R67). -/
def decodeByte (cHi cLo : Codeword) : Byte :=
  joinNibbles (decodeNibble cHi) (decodeNibble cLo)

/-- The Result of SYN (R64). -/
def resultSyn (c : Codeword) : Result :=
  { status := .ok, s := some (syndrome c) }

/-- The Result of DEC7 (R65). -/
def resultDec7 (c : Codeword) : Result :=
  { status := .ok, nOut := some (decodeNibble c), corrected := some (correctedFlag c), s := some (syndrome c) }

/-- The Result of DEC16 (R67). -/
def resultDec16 (cHi cLo : Codeword) : Result :=
  { status := .ok, bOut := some (decodeByte cHi cLo),
    correctedHi := some (correctedFlag cHi), correctedLo := some (correctedFlag cLo) }

/-- SYN (R64). -/
def execSyn (c : Codeword) (s : State) : Host.Outcome State Fault Refusal :=
  conclude (.ok (resultSyn c)) s

/-- DEC7 (R65). -/
def execDec7 (c : Codeword) (s : State) : Host.Outcome State Fault Refusal :=
  conclude (.ok (resultDec7 c)) s

/-- DEC16 (R67). -/
def execDec16 (cHi cLo : Codeword) (s : State) : Host.Outcome State Fault Refusal :=
  conclude (.ok (resultDec16 cHi cLo)) s

end Sys2Proof.Machine
end

