-- ==== Sys2Proof/Machine/Encoder.lean ====
section
/-! DEFINITION. The encoder operations ENC4 and ENC8 (spec/40_encoder.md R60, R61). -/

namespace Sys2Proof.Machine

/-- `ENC4(n).cw`: the data bits with their three parity bits, packed (R60). -/
def encodeNibble (n : Nibble) : Codeword :=
  pack { p1 := parity1 (dataBits n), p2 := parity2 (dataBits n), p3 := parity3 (dataBits n), data := dataBits n }

/-- The Result of ENC4 (R60). -/
def resultEnc4 (n : Nibble) : Result :=
  { status := .ok, cw := some (encodeNibble n) }

/-- The Result of ENC8: the two nibbles encoded independently, the high one on `cw_hi` (R61). -/
def resultEnc8 (b : Byte) : Result :=
  { status := .ok, cwHi := some (encodeNibble (highNibble b)), cwLo := some (encodeNibble (lowNibble b)) }

/-- ENC4 (R60). -/
def execEnc4 (n : Nibble) (s : State) : Host.Outcome State Fault Refusal :=
  conclude (.ok (resultEnc4 n)) s

/-- ENC8 (R61). -/
def execEnc8 (b : Byte) (s : State) : Host.Outcome State Fault Refusal :=
  conclude (.ok (resultEnc8 b)) s

end Sys2Proof.Machine
end

