-- ==== Sys2Proof/Machine/Buffers.lean ====
section
/-! DEFINITION. The buffer operations ENCBUF and DECBUF (spec/42_buffer.md R69, R70), as the loops of their
pseudocode over `memRead` and `memWrite`. Each is one step, so no partial `OUT` is ever seen (R73). -/

namespace Sys2Proof.Machine

/-- The loop body of ENCBUF: byte `i` of `IN` becomes bytes `2i` and `2i + 1` of `OUT`, high codeword first
(R69). -/
def encodeStep (inBuf : Buffer) (i : Nat) (out : Buffer) : Except Fault Buffer :=
  (memRead inBuf i).bind fun b =>
  (memWrite out (2 * i) (encodeNibble (highNibble b))).bind fun out =>
  memWrite out (2 * i + 1) (encodeNibble (lowNibble b))

/-- The output buffer of ENCBUF (R69). -/
def encodeBuffer (inBuf : Buffer) : Except Fault Buffer :=
  forUpTo (encodeStep inBuf) inBuf.length []

/-- The loop body of DECBUF: bytes `2i` and `2i + 1` of `IN` become byte `i` of `OUT` (R70). -/
def decodeStep (inBuf : Buffer) (i : Nat) (out : Buffer) : Except Fault Buffer :=
  (memRead inBuf (2 * i)).bind fun h =>
  (memRead inBuf (2 * i + 1)).bind fun l =>
  memWrite out i (decodeByte h l)

/-- The output buffer of DECBUF for an even length (R70). -/
def decodeBuffer (inBuf : Buffer) : Except Fault Buffer :=
  forUpTo (decodeStep inBuf) (inBuf.length / 2) []

/-- A Result with status OK that hands back `OUT`. -/
def bufferResult (out : Buffer) : Result :=
  { status := .ok, outBuf := some out }

/-- The Result of ENCBUF (R69). -/
def resultEncbuf (inBuf : Buffer) : Except Fault Result :=
  (encodeBuffer inBuf).map bufferResult

/-- The Result of DECBUF: LENGTH_MISMATCH for an odd length, checked before any read (R70, R75). -/
def resultDecbuf (inBuf : Buffer) : Except Fault Result :=
  if inBuf.length % 2 ≠ 0 then .ok (raise .lengthMismatch)
  else (decodeBuffer inBuf).map bufferResult

/-- ENCBUF (R69). -/
def execEncbuf (inBuf : Buffer) (s : State) : Host.Outcome State Fault Refusal :=
  concludeBuffer inBuf (resultEncbuf inBuf) s

/-- DECBUF (R70). -/
def execDecbuf (inBuf : Buffer) (s : State) : Host.Outcome State Fault Refusal :=
  concludeBuffer inBuf (resultDecbuf inBuf) s

end Sys2Proof.Machine
end

