-- ==== Sys2Proof/Machine/Reserved.lean ====
section
/-! DEFINITION. The reserved selector 0b111 (spec/30_encoding.md R55; spec/60_exceptions.md R76). -/

namespace Sys2Proof.Machine

/-- The Result of the reserved selector: ILLEGAL_OP, no operand read and no data port driven (R76). -/
def resultRsv7 : Result := raise .illegalOp

/-- The reserved selector (R76). -/
def execRsv7 (s : State) : Host.Outcome State Fault Refusal :=
  conclude (.ok resultRsv7) s

end Sys2Proof.Machine
end

