-- ==== Sys2Proof/Machine/Block.lean ====
section
/-! DEFINITION. The block level (spec/00_scope.md R13): the codec as the pure function `perform` from an
operation and its operands to a Result (spec/10_state.md R23, R28). It has no state, so it also says what
the block does with an operation after a failed one (spec/60_exceptions.md R83). -/

namespace Sys2Proof.Machine

/-- The Result of an operation by its rule (R25, R28). The error case is a buffer access outside its
buffer, which no operation makes (spec/20_memory.md R31). -/
def perform : Instr → Except Fault Result
  | .enc4 n => .ok (resultEnc4 n)
  | .enc8 b => .ok (resultEnc8 b)
  | .encbuf inBuf => resultEncbuf inBuf
  | .syn c => .ok (resultSyn c)
  | .dec7 c => .ok (resultDec7 c)
  | .dec16 cHi cLo => .ok (resultDec16 cHi cLo)
  | .decbuf inBuf => resultDecbuf inBuf
  | .rsv7 => .ok resultRsv7

/-- The Results of a list of operations at block level, one each: an operation after a failing one is
performed normally (R83). -/
def performAll : List Instr → Except Fault (List Result)
  | [] => .ok []
  | i :: is => (perform i).bind fun r => (performAll is).map (r :: ·)

end Sys2Proof.Machine
end

