-- ==== Sys2Proof/Machine/Dispatch.lean ====
section
/-! DEFINITION. The meaning of each operation, one arm per row of spec/opcode_table.json. -/

namespace Sys2Proof.Machine

def exec (i : Instr) (s : State) : Host.Outcome State Fault Refusal :=
  match i with
  | .enc4 n => Sys2Proof.Machine.execEnc4 n s
  | .enc8 b => Sys2Proof.Machine.execEnc8 b s
  | .encbuf inBuf => Sys2Proof.Machine.execEncbuf inBuf s
  | .syn c => Sys2Proof.Machine.execSyn c s
  | .dec7 c => Sys2Proof.Machine.execDec7 c s
  | .dec16 cHi cLo => Sys2Proof.Machine.execDec16 cHi cLo s
  | .decbuf inBuf => Sys2Proof.Machine.execDecbuf inBuf s
  | .rsv7 => Sys2Proof.Machine.execRsv7 s

end Sys2Proof.Machine
end

