-- ==== Sys2Proof/Machine/Step.lean ====
section
/-! DEFINITION. One step of a run (spec/10_state.md R25), and how a word of the opcode table is placed where
the next step takes its operation. -/

namespace Sys2Proof.Machine

/-- One step: a faulted run has none; a run whose list is exhausted has ended; otherwise the operation the
host presents next is decoded and performed (R25). -/
def step (s : State) : Host.Outcome State Fault Refusal :=
  match s.fault with
  | some e => .fault (.runFaulted e)
  | none =>
    match s.fetch with
    | none => .refused .runEnded
    | some p => exec (decode p) s

/-- `s` with the selector word `w` presented, with zero operands, as the operation of the next step
(position `opIndex` of the run, the rest of the run unchanged); a word that is no selector presents
nothing (notes/assumptions/7). -/
def State.withFetchWord (s : State) (nbits w : Nat) : State :=
  match selectorOfWord nbits w with
  | .error _ => s
  | .ok op =>
    { s with
      run := s.run.take s.opIndex
        ++ List.replicate (s.opIndex - s.run.length) (Presented.idle 0)
        ++ Presented.idle op :: s.run.drop (s.opIndex + 1) }

end Sys2Proof.Machine
end

