-- ==== Sys2Proof/Machine/Assembler.lean ====
section
/-! DEFINITION. The spec's assembler syntax (spec/30_encoding.md R57): one operation per line, `;` starts a
comment. A line is a list of characters. Assembling is total; a line that spells no operation is rejected
by name. The mnemonics and operand forms are R57's; the lexical details it leaves open (blank characters,
case, leading zeros) are in notes/assumptions/11. There are no pseudo-operations (R58). -/

namespace Sys2Proof.Machine

/-- Why a line spells no operation. -/
inductive AsmError where
  /-- The first word is none of the eight mnemonics. Raised by `parseOperation`; safe. -/
  | unknownMnemonic (word : List Char)
  /-- The line does not begin with a word. Raised by `parseOperation`; safe. -/
  | noMnemonic
  /-- The operands are not of the form the mnemonic takes. Raised by `parseOperation`; safe. -/
  | badOperands
  /-- A word that is no decimal, `0x` or `0b` integer. Raised by `parseOperand`; safe. -/
  | badInteger (word : List Char)
  /-- An integer that does not fit its port of `width` bits. Raised by `parseOperand`; safe. -/
  | operandTooWide (width value : Nat)
  deriving DecidableEq, Repr

/-- The tokens of a line. -/
inductive Token where
  | word (cs : List Char)
  | comma
  | lbrack
  | rbrack
  deriving DecidableEq, Repr

/-- The token of a finished word, whose characters stand in reverse in `cur`; no token for an empty one. -/
def flushWord (cur : List Char) (ts : List Token) : List Token :=
  match cur with
  | [] => ts
  | _ :: _ => .word cur.reverse :: ts

/-- The tokens of a line up to its end or its comment; `cur` is the word being read, in reverse. -/
def lexLine : List Char → List Char → List Token
  | [], cur => flushWord cur []
  | ch :: rest, cur =>
    if ch = ';' then flushWord cur []
    else if ch = ' ' ∨ ch = '\t' then flushWord cur (lexLine rest [])
    else if ch = ',' then flushWord cur (.comma :: lexLine rest [])
    else if ch = '[' then flushWord cur (.lbrack :: lexLine rest [])
    else if ch = ']' then flushWord cur (.rbrack :: lexLine rest [])
    else lexLine rest (ch :: cur)

/-- The value of a digit below 16. -/
def digitValue (ch : Char) : Option Nat :=
  if '0' ≤ ch ∧ ch ≤ '9' then some (ch.toNat - '0'.toNat)
  else if 'a' ≤ ch ∧ ch ≤ 'f' then some (ch.toNat - 'a'.toNat + 10)
  else if 'A' ≤ ch ∧ ch ≤ 'F' then some (ch.toNat - 'A'.toNat + 10)
  else none

/-- The value of a string of digits in base `base`, most significant first, continuing from `acc`. -/
def digitsValue (base : Nat) : List Char → Nat → Option Nat
  | [], acc => some acc
  | ch :: rest, acc =>
    match digitValue ch with
    | some d => if d < base then digitsValue base rest (acc * base + d) else none
    | none => none

/-- A nonempty string of digits. -/
def digits (base : Nat) (cs : List Char) : Option Nat :=
  match cs with
  | [] => none
  | _ :: _ => digitsValue base cs 0

/-- An integer in decimal, `0x` hexadecimal or `0b` binary (R57). -/
def parseInteger (cs : List Char) : Option Nat :=
  match cs with
  | '0' :: 'x' :: ds => digits 16 ds
  | '0' :: 'b' :: ds => digits 2 ds
  | ds => digits 10 ds

/-- An integer operand for a port of `w` bits; one that does not fit spells no operation (R57). -/
def parseOperand (w : Nat) (cs : List Char) : Except AsmError (BitVec w) :=
  match parseInteger cs with
  | none => .error (.badInteger cs)
  | some v => if v < 2 ^ w then .ok (BitVec.ofNat w v) else .error (.operandTooWide w v)

/-- The bytes of a list after its `[`, at least one, up to the `]` that ends the line. -/
def parseBytes : List Token → Except AsmError Buffer
  | .word cs :: .comma :: rest => (parseOperand 8 cs).bind fun b => (parseBytes rest).map (b :: ·)
  | [.word cs, .rbrack] => (parseOperand 8 cs).map ([·])
  | _ => .error .badOperands

/-- A list of bytes, possibly empty (R57). -/
def parseBuffer : List Token → Except AsmError Buffer
  | [.lbrack, .rbrack] => .ok []
  | .lbrack :: rest => parseBytes rest
  | _ => .error .badOperands

/-- One integer operand for a port of `w` bits. -/
def parseOne (w : Nat) : List Token → Except AsmError (BitVec w)
  | [.word cs] => parseOperand w cs
  | _ => .error .badOperands

/-- Two byte operands separated by a comma. -/
def parsePair : List Token → Except AsmError (Byte × Byte)
  | [.word x, .comma, .word y] => (parseOperand 8 x).bind fun a => (parseOperand 8 y).map (a, ·)
  | _ => .error .badOperands

/-- The mnemonics of R57. -/
inductive Mnemonic where
  | enc4 | enc8 | encbuf | syn | dec7 | dec16 | decbuf | rsv7
  deriving DecidableEq, Repr

/-- The spelling of a mnemonic (R57). -/
def Mnemonic.spell : Mnemonic → List Char
  | .enc4 => ['e', 'n', 'c', '4']
  | .enc8 => ['e', 'n', 'c', '8']
  | .encbuf => ['e', 'n', 'c', 'b', 'u', 'f']
  | .syn => ['s', 'y', 'n']
  | .dec7 => ['d', 'e', 'c', '7']
  | .dec16 => ['d', 'e', 'c', '1', '6']
  | .decbuf => ['d', 'e', 'c', 'b', 'u', 'f']
  | .rsv7 => ['r', 's', 'v', '7']

/-- The mnemonics in the order of their selectors (R53). -/
def Mnemonic.all : List Mnemonic := [.enc4, .enc8, .encbuf, .syn, .dec7, .dec16, .decbuf, .rsv7]

/-- The operation that the tokens of a line spell; a line without tokens spells none. -/
def parseOperation : List Token → Except AsmError (Option Instr)
  | [] => .ok none
  | .word m :: ts =>
    match Mnemonic.all.find? (fun k => k.spell == m) with
    | none => .error (.unknownMnemonic m)
    | some .enc4 => (parseOne 4 ts).map fun n => some (.enc4 n)
    | some .enc8 => (parseOne 8 ts).map fun b => some (.enc8 b)
    | some .encbuf => (parseBuffer ts).map fun inBuf => some (.encbuf inBuf)
    | some .syn => (parseOne 8 ts).map fun c => some (.syn c)
    | some .dec7 => (parseOne 8 ts).map fun c => some (.dec7 c)
    | some .dec16 => (parsePair ts).map fun p => some (.dec16 p.1 p.2)
    | some .decbuf => (parseBuffer ts).map fun inBuf => some (.decbuf inBuf)
    | some .rsv7 => if ts = [] then .ok (some .rsv7) else .error .badOperands
  | _ => .error .noMnemonic

/-- The operation on one line, or none on a line that is blank or only a comment (R57). -/
def assembleLine (line : List Char) : Except AsmError (Option Instr) :=
  parseOperation (lexLine line [])

/-- The operations of a text, one per line, as the host presents them (R57, R19). -/
def assemble : List (List Char) → Except AsmError (List Presented)
  | [] => .ok []
  | line :: rest =>
    (assembleLine line).bind fun i => (assemble rest).map fun ps => (i.map encode).toList ++ ps

/-- The character of a decimal digit. -/
def digitChar (d : Nat) : Char := Char.ofNat ('0'.toNat + d)

/-- A value below 1000 in decimal without leading zeros. -/
def spellNat (v : Nat) : List Char :=
  if v < 10 then [digitChar v]
  else if v < 100 then [digitChar (v / 10), digitChar (v % 10)]
  else [digitChar (v / 100), digitChar (v / 10 % 10), digitChar (v % 10)]

/-- The bytes of a list after the first, each after a comma and a blank, with the closing bracket. -/
def spellTail : Buffer → List Char
  | [] => [']']
  | b :: rest => ',' :: ' ' :: (spellNat b.toNat ++ spellTail rest)

/-- A list of bytes (R57). -/
def spellBuffer : Buffer → List Char
  | [] => ['[', ']']
  | b :: rest => '[' :: (spellNat b.toNat ++ spellTail rest)

/-- A line that spells an operation, its integers in decimal (R57). -/
def spell : Instr → List Char
  | .enc4 n => Mnemonic.enc4.spell ++ ' ' :: spellNat n.toNat
  | .enc8 b => Mnemonic.enc8.spell ++ ' ' :: spellNat b.toNat
  | .encbuf inBuf => Mnemonic.encbuf.spell ++ ' ' :: spellBuffer inBuf
  | .syn c => Mnemonic.syn.spell ++ ' ' :: spellNat c.toNat
  | .dec7 c => Mnemonic.dec7.spell ++ ' ' :: spellNat c.toNat
  | .dec16 cHi cLo => Mnemonic.dec16.spell ++ ' ' :: (spellNat cHi.toNat ++ ',' :: ' ' :: spellNat cLo.toNat)
  | .decbuf inBuf => Mnemonic.decbuf.spell ++ ' ' :: spellBuffer inBuf
  | .rsv7 => Mnemonic.rsv7.spell

end Sys2Proof.Machine
end

