-- ==== Sys2Proof/Safety.lean ====
section
/-! DEFINITION. The terms the claims use: how a run ends (spec/10_state.md R25), what holds of every state a
run goes through, and the spec's bit formulas written out as they stand in the rules, apart from the
model's own layout functions. -/

namespace Sys2Proof.Claim

open Sys2Proof.Machine

/-- A run that met a non-OK status: no claim may take it as a good end (R25). -/
def Faulted (s : State) : Prop := s.fault ≠ none

/-- A good end of a run: every operation of the host's list was performed with status OK (R25). -/
def GoodEnd (s : State) : Prop := s.fault = none ∧ s.opIndex = s.run.length

/-- What holds of every state of a run: the log holds the Results of the first `opIndex` operations of the
run, each by its rule; every one but the last has status OK; and `fault` is the non-OK status of the
last, if it has one (R19, R24, R25). -/
structure RunInv (s : State) : Prop where
  index_le : s.opIndex ≤ s.run.length
  log_length : s.log.length = s.opIndex
  log_rule : ∀ (k : Nat) (p : Presented) (r : Result), s.run[k]? = some p → s.log[k]? = some r → perform (decode p) = .ok r
  performed_wf : ∀ (k : Nat) (p : Presented), k < s.opIndex → s.run[k]? = some p → (decode p).wf s.config = true
  earlier_ok : ∀ (k : Nat) (r : Result), k + 1 < s.opIndex → s.log[k]? = some r → r.status = .ok
  fault_last : s.fault = s.log.getLast?.bind fun r => r.status.error?

/-- The Results of a run up to and with the first non-OK one (R25). -/
def upToError : List Result → List Result
  | [] => []
  | r :: rs =>
    match r.status with
    | .ok => r :: upToError rs
    | .raised _ => [r]

/-- `v[i]` as a 1-bit value (spec/00_scope.md R7). -/
def bit {w : Nat} (v : BitVec w) (i : Nat) : BitVec 1 := BitVec.ofBool (v.getLsbD i)

/-- `{0b0, p1, p2, d1, p3, d2, d3, d4}` with the parity bits of R47 and R60. -/
def codeword (n : Nibble) : Codeword :=
  0b0#1 ++ (bit n 3 ^^^ bit n 2 ^^^ bit n 0) ++ (bit n 3 ^^^ bit n 1 ^^^ bit n 0) ++ bit n 3
    ++ (bit n 2 ^^^ bit n 1 ^^^ bit n 0) ++ bit n 2 ++ bit n 1 ++ bit n 0

/-- `{c3, c2, c1}` with the check bits of R48 and R64. -/
def syndromeOf (c : Codeword) : Syndrome :=
  (bit c 3 ^^^ bit c 2 ^^^ bit c 1 ^^^ bit c 0) ++ (bit c 5 ^^^ bit c 4 ^^^ bit c 1 ^^^ bit c 0)
    ++ (bit c 6 ^^^ bit c 4 ^^^ bit c 2 ^^^ bit c 0)

/-- `c'` of R65: container bit `7 − s` flipped for a nonzero syndrome `s`. -/
def corrected (c : Codeword) : Codeword :=
  if syndromeOf c ≠ 0 then c ^^^ (0x01#8 <<< (7 - (syndromeOf c).toNat)) else c

/-- `n_out` of R65: `{c'[4], c'[2], c'[1], c'[0]}`. -/
def nibble (c : Codeword) : Nibble :=
  bit (corrected c) 4 ++ bit (corrected c) 2 ++ bit (corrected c) 1 ++ bit (corrected c) 0

/-- `corrected` of R65: `s != 0 ? 1 : 0`. -/
def flag (c : Codeword) : Flag := if syndromeOf c ≠ 0 then 1 else 0

/-- The number of coded bits (bits 0 to 6) set in an error pattern (spec/41_decoder.md R66). -/
def weight (e : Codeword) : Nat := ((List.range 7).filter fun i => e.getLsbD i).length

/-- A codeword that ENC4 gives for some nibble (spec/30_encoding.md R50). -/
def Valid (cw : Codeword) : Prop := ∃ n, encodeNibble n = cw

/-- The data ports an operation drives when its status is OK (the table of R17). -/
def drives : Instr → List OutPort
  | .enc4 _ => [.cw]
  | .enc8 _ => [.cwHi, .cwLo]
  | .encbuf _ => [.outBuf]
  | .syn _ => [.s]
  | .dec7 _ => [.s, .nOut, .corrected]
  | .dec16 _ _ => [.bOut, .correctedHi, .correctedLo]
  | .decbuf _ => [.outBuf]
  | .rsv7 => []

/-- Two presentations with the same selector and the same values on the ports it reads (the table of R54). -/
def SameOperation (p q : Presented) : Prop :=
  p.op = q.op ∧
  (p.op = 0b000 → p.n = q.n) ∧
  (p.op = 0b001 → p.b = q.b) ∧
  (p.op = 0b010 ∨ p.op = 0b110 → p.inBuf = q.inBuf) ∧
  (p.op = 0b011 ∨ p.op = 0b100 → p.c = q.c) ∧
  (p.op = 0b101 → p.cHi = q.cHi ∧ p.cLo = q.cLo)

end Sys2Proof.Claim
end

