-- ==== Sys2Proof/Certificates/Slice0/Obligations.lean ====
section
/-! DEFINITION. The statements for the provers. Each docstring names the rule of spec/ it formalises; where a
clause rests on a choice of the model, it names the log entry. -/

open Sys2Proof Sys2Proof.Machine

/-! ## Reset and the step of a run -/

/-- R27: the reset values of the bookkeeping; no output port holds a value before the first operation; and
beside these fields and what the host supplies (`config`, `run`) there is nothing to reset. -/
def Obligations.ResetHoldsOnlyEmptyBookkeeping : Prop :=
  State.reset.opIndex = 0 ∧ State.reset.log = [] ∧ State.reset.fault = none ∧
  (∀ p, State.reset.readOut p = .error (.undrivenPort p)) ∧
  ∀ s : State, s.config = State.reset.config → s.run = State.reset.run → s.opIndex = 0 → s.log = [] →
    s.fault = none → s = State.reset

/-- R19, R25: in a run without a fault, `step` is `exec` of the operation that the host presents at position
`opIndex`. Nothing stands around it: `exec` itself counts the operation and logs its Result. -/
def Obligations.StepRunsThePresentedOperation : Prop :=
  ∀ (s : State) (p : Presented), s.fault = none → s.run[s.opIndex]? = some p →
    step s = exec (decode p) s

/-- R25: a step exists exactly when no fault is set and the host presents an operation; it appends the Result
of the operation's rule to the log, counts the operation, makes a non-OK status the sticky fault, and
changes nothing else. That there is also no step for a buffer above `MAX_BUF_LEN` (the `wf` clause) is
not R25's: it comes from R69, R70 and spec/93_implementation_defined.md I11, and the form it has here is
the model's (notes/assumptions/4). -/
def Obligations.StepLogsTheResultOfTheRule : Prop :=
  ∀ s s' : State, step s = .next s' ↔
    ∃ p r, s.fault = none ∧ s.run[s.opIndex]? = some p ∧ (decode p).wf s.config = true ∧
      perform (decode p) = .ok r ∧
      s' = { s with
        log := s.log ++ [r]
        opIndex := s.opIndex + 1
        fault := match r.status with
          | .ok => none
          | .raised e => some e }

/-- R25: when the host's list is exhausted without a fault there is no step. That the model says so by the
refusal `runEnded` is its own choice (notes/assumptions/6). -/
def Obligations.ExhaustedRunEnds : Prop :=
  ∀ s : State, s.fault = none → s.run.length ≤ s.opIndex → step s = .refused .runEnded

/-- R84: an operation that completes leaves the status of its Result, if non-OK, in `fault`; `fault` is never
cleared, since a faulted run has no step, whatever the operation. The name of the stop is the model's
(notes/assumptions/5). -/
def Obligations.FirstErrorStopsTheRun : Prop :=
  (∀ (i : Instr) (s s' : State), exec i s = .next s' →
    s.fault = none ∧ ∃ r, s'.log = s.log ++ [r] ∧
      (r.status = .ok → s'.fault = none) ∧ (∀ e, r.status = .raised e → s'.fault = some e)) ∧
  ∀ (s : State) (e : ErrorStatus), s.fault = some e →
    step s = .fault (.runFaulted e) ∧ ∀ i, exec i s = .fault (.runFaulted e)

/-- The frame of every operation (R15, R19, R25, R36): the host's list with every `IN` in it, and the
parameter, are unchanged; every earlier Result stands in the log; exactly one is added. -/
def Obligations.OperationsChangeOnlyBookkeeping : Prop :=
  ∀ (i : Instr) (s s' : State), exec i s = .next s' →
    s'.config = s.config ∧ s'.run = s.run ∧ s'.opIndex = s.opIndex + 1 ∧
    s'.log.length = s.log.length + 1 ∧ (∀ k, k < s.log.length → s'.log[k]? = s.log[k]?) ∧
    ((∃ r, s'.log.getLast? = some r ∧ r.status = .ok) → s'.fault = s.fault)

/-- Every step keeps the invariant of a run, from every state that meets it. -/
def Obligations.StepKeepsTheRunInvariant : Prop :=
  ∀ s s' : State, Claim.RunInv s → step s = .next s' → Claim.RunInv s'

/-- The invariant holds at reset, and of every run before its first operation. -/
def Obligations.RunInvariantHoldsAtTheStart : Prop :=
  Claim.RunInv State.reset ∧ ∀ c run, Claim.RunInv (State.ofRun c run)

/-- R28: the run is the fold of R25 over the host's list. For every parameter and every list of operations
that can be presented, with block-level Results `rs`, the machine performs the operations up to and
with the first non-OK one, holds exactly their Results, and then stops. -/
def Obligations.RunIsTheFoldOfTheRules : Prop :=
  ∀ (c : Config) (run : List Presented) (rs : List Result),
    (∀ p ∈ run, (decode p).wf c = true) → performAll (run.map decode) = .ok rs →
    core.run (Claim.upToError rs).length (State.ofRun c run) =
      .next { config := c, run := run, opIndex := (Claim.upToError rs).length, log := Claim.upToError rs,
              fault := (Claim.upToError rs).getLast?.bind fun r => r.status.error? } ∧
    core.run ((Claim.upToError rs).length + 1) (State.ofRun c run) =
      match (Claim.upToError rs).getLast?.bind fun r => r.status.error? with
      | some e => .fault (.runFaulted e)
      | none => .refused .runEnded

/-- R23: two operations with equal `op` and equal operands have equal Results, whatever ran before them and
whatever stands on the ports they do not read. -/
def Obligations.ResultDependsOnOperandsAlone : Prop :=
  ∀ (s t s' t' : State) (p q : Presented), s.run[s.opIndex]? = some p → t.run[t.opIndex]? = some q →
    Claim.SameOperation p q → step s = .next s' → step t = .next t' →
    s'.log.getLast? = t'.log.getLast? ∧ s'.fault = t'.fault

/-- A presented operation always completes: every operation within `MAX_BUF_LEN` has a next state (R79, R98). -/
def Obligations.EveryPresentedOperationCompletes : Prop :=
  ∀ (s : State) (p : Presented), s.fault = none → s.run[s.opIndex]? = some p →
    (decode p).wf s.config = true → ∃ s', step s = .next s'

/-- R31: no operation reads outside its input buffer or leaves a gap in its output buffer, in any state: the
only fault a step answers is that of a faulted run. -/
def Obligations.NoStepLeavesItsBuffers : Prop :=
  ∀ (s : State) (f : Fault), step s = .fault f → ∃ e, s.fault = some e ∧ f = .runFaulted e

/-- R81: the selector is examined first, whatever stands on the operand ports; only DECBUF then checks its
length; every presented operation ends with exactly one status. -/
def Obligations.SelectorIsCheckedBeforeLength : Prop :=
  ∀ (s : State) (p : Presented), s.fault = none → s.run[s.opIndex]? = some p →
    (decode p).wf s.config = true →
    ∃ s', step s = .next s' ∧
      s'.fault =
        if p.op = 0b111 then some .illegalOp
        else if p.op = 0b110 ∧ p.inBuf.length % 2 = 1 then some .lengthMismatch
        else none

/-! ## Decoding a presented operation -/

/-- R53, R59: each of the 8 selector values names exactly one row, and the row alone chooses the operands. -/
def Obligations.EverySelectorNamesItsRow : Prop :=
  ∀ p : Presented,
    (p.op = 0b000 → decode p = .enc4 p.n) ∧
    (p.op = 0b001 → decode p = .enc8 p.b) ∧
    (p.op = 0b010 → decode p = .encbuf p.inBuf) ∧
    (p.op = 0b011 → decode p = .syn p.c) ∧
    (p.op = 0b100 → decode p = .dec7 p.c) ∧
    (p.op = 0b101 → decode p = .dec16 p.cHi p.cLo) ∧
    (p.op = 0b110 → decode p = .decbuf p.inBuf) ∧
    (p.op = 0b111 → decode p = .rsv7)

/-- R53, R54, R56: decoding an encoded operation gives it back with every operand, and two presentations
decode alike exactly when they agree on the selector and on the ports it reads. -/
def Obligations.DecodeInvertsEncode : Prop :=
  (∀ i : Instr, decode (encode i) = i) ∧
  ∀ p q : Presented, decode p = decode q ↔ Claim.SameOperation p q

/-- The opcode table's words: in a word of any size from the selector's own 3 bits on, the eight values decode
with zero operands to their rows; a larger number or a word shorter than the selector is no operation
(notes/assumptions/7). -/
def Obligations.TableWordsDecodeToTheirRows : Prop :=
  (∀ nbits, 3 ≤ nbits →
    decodeTableWord nbits 0 = some (.enc4 0) ∧ decodeTableWord nbits 1 = some (.enc8 0) ∧
    decodeTableWord nbits 2 = some (.encbuf []) ∧ decodeTableWord nbits 3 = some (.syn 0) ∧
    decodeTableWord nbits 4 = some (.dec7 0) ∧ decodeTableWord nbits 5 = some (.dec16 0 0) ∧
    decodeTableWord nbits 6 = some (.decbuf []) ∧ decodeTableWord nbits 7 = some .rsv7) ∧
  ∀ nbits w, (decodeTableWord nbits w = none ↔ nbits < 3 ∨ 8 ≤ w)

/-! ## The operations -/

/-- R60. -/
def Obligations.Enc4DrivesTheCodeword : Prop :=
  ∀ (n : Nibble) (s : State), s.fault = none →
    exec (.enc4 n) s = .next { s with
      opIndex := s.opIndex + 1
      log := s.log ++ [{ status := .ok, cw := some (Claim.codeword n) }] }

/-- R61: the high nibble's codeword on `cw_hi`, the low nibble's on `cw_lo`. -/
def Obligations.Enc8DrivesTheCodewordPair : Prop :=
  ∀ (b : Byte) (s : State), s.fault = none →
    exec (.enc8 b) s = .next { s with
      opIndex := s.opIndex + 1
      log := s.log ++ [{ status := .ok, cwHi := some (Claim.codeword (b.extractLsb 7 4)),
                         cwLo := some (Claim.codeword (b.extractLsb 3 0)) }] }

/-- R64. -/
def Obligations.SynDrivesTheSyndrome : Prop :=
  ∀ (c : Codeword) (s : State), s.fault = none →
    exec (.syn c) s = .next { s with
      opIndex := s.opIndex + 1
      log := s.log ++ [{ status := .ok, s := some (Claim.syndromeOf c) }] }

/-- R65, with its closed form. -/
def Obligations.Dec7CorrectsAndDecodes : Prop :=
  ∀ (c : Codeword) (s : State), s.fault = none →
    exec (.dec7 c) s = .next { s with
      opIndex := s.opIndex + 1
      log := s.log ++ [{ status := .ok, nOut := some (Claim.nibble c), corrected := some (Claim.flag c),
                         s := some (Claim.syndromeOf c) }] } ∧
    Claim.nibble c =
      (Claim.bit c 4 ^^^ BitVec.ofBool (Claim.syndromeOf c == 3))
        ++ (Claim.bit c 2 ^^^ BitVec.ofBool (Claim.syndromeOf c == 5))
        ++ (Claim.bit c 1 ^^^ BitVec.ofBool (Claim.syndromeOf c == 6))
        ++ (Claim.bit c 0 ^^^ BitVec.ofBool (Claim.syndromeOf c == 7))

/-- R67: each codeword of the pair decoded by itself, the first one's nibble in bits 7 to 4. -/
def Obligations.Dec16DecodesBothHalves : Prop :=
  ∀ (cHi cLo : Codeword) (s : State), s.fault = none →
    exec (.dec16 cHi cLo) s = .next { s with
      opIndex := s.opIndex + 1
      log := s.log ++ [{ status := .ok, bOut := some (Claim.nibble cHi ++ Claim.nibble cLo),
                         correctedHi := some (Claim.flag cHi), correctedLo := some (Claim.flag cLo) }] }

/-- R69: status OK for every admitted length, `OUT` twice as long, bytes `2i` and `2i + 1` the codewords of
byte `i`. -/
def Obligations.EncbufEncodesEveryByte : Prop :=
  ∀ (inBuf : Buffer) (s : State), s.fault = none → s.config.admits inBuf.length = true →
    ∃ out : Buffer,
      exec (.encbuf inBuf) s = .next { s with
        opIndex := s.opIndex + 1
        log := s.log ++ [{ status := .ok, outBuf := some out }] } ∧
      out.length = 2 * inBuf.length ∧
      ∀ (i : Nat) (b : Byte), inBuf[i]? = some b →
        out[2 * i]? = some (Claim.codeword (b.extractLsb 7 4)) ∧
        out[2 * i + 1]? = some (Claim.codeword (b.extractLsb 3 0))

/-- R70: for an even length, `OUT` half as long, byte `i` the decoding of bytes `2i` and `2i + 1`; for an odd
length, LENGTH_MISMATCH and no `OUT`. -/
def Obligations.DecbufDecodesEveryPairOrRaises : Prop :=
  ∀ (inBuf : Buffer) (s : State), s.fault = none → s.config.admits inBuf.length = true →
    (inBuf.length % 2 = 0 → ∃ out : Buffer,
      exec (.decbuf inBuf) s = .next { s with
        opIndex := s.opIndex + 1
        log := s.log ++ [{ status := .ok, outBuf := some out }] } ∧
      out.length = inBuf.length / 2 ∧
      ∀ (i : Nat) (h l : Byte), inBuf[2 * i]? = some h → inBuf[2 * i + 1]? = some l →
        out[i]? = some (Claim.nibble h ++ Claim.nibble l)) ∧
    (inBuf.length % 2 = 1 →
      exec (.decbuf inBuf) s = .next { s with
        opIndex := s.opIndex + 1
        log := s.log ++ [{ status := .raised .lengthMismatch }]
        fault := some .lengthMismatch })

/-- R76: the reserved selector reads no operand, records nothing but ILLEGAL_OP, and drives no data port. -/
def Obligations.ReservedSelectorIsIllegal : Prop :=
  (∀ p : Presented, p.op = 0b111 → decode p = .rsv7) ∧
  ∀ s : State, s.fault = none →
    exec .rsv7 s = .next { s with
      opIndex := s.opIndex + 1
      log := s.log ++ [{ status := .raised .illegalOp }]
      fault := some .illegalOp }

/-- R6, R69, R70 with spec/93_implementation_defined.md I11: a buffer longer than `MAX_BUF_LEN` cannot be
presented; the model refuses it (notes/assumptions/4). -/
def Obligations.OverlongBufferIsRefused : Prop :=
  ∀ (inBuf : Buffer) (s : State) (m : Nat), s.fault = none → s.config.maxBufLen = some m → m < inBuf.length →
    exec (.encbuf inBuf) s = .refused (.bufferTooLong inBuf.length) ∧
    exec (.decbuf inBuf) s = .refused (.bufferTooLong inBuf.length)

/-! ## Status, flags and output ports -/

/-- R74: the four status values, the last of which no operation produces, and who raises the others. -/
def Obligations.StatusCodesAndTheirCauses : Prop :=
  ∀ (i : Instr) (r : Result), perform i = .ok r →
    (r.status = .ok → r.status.code = 0b00) ∧
    (r.status.code = 0b01 ↔ r.status = .raised .lengthMismatch) ∧
    (r.status.code = 0b10 ↔ r.status = .raised .illegalOp) ∧
    r.status.code ≠ 0b11 ∧
    (r.status = .raised .lengthMismatch → ∃ inBuf, i = .decbuf inBuf ∧ inBuf.length % 2 = 1) ∧
    (r.status = .raised .illegalOp → i = .rsv7)

/-- R75: LENGTH_MISMATCH comes from a DECBUF of odd length and from nothing else, and its Result records the
status alone. -/
def Obligations.LengthMismatchExactlyOnOddDecbuf : Prop :=
  ∀ (i : Instr) (s s' : State), exec i s = .next s' →
    ((s'.fault = some .lengthMismatch ↔ ∃ inBuf, i = .decbuf inBuf ∧ inBuf.length % 2 = 1) ∧
     (s'.fault = some .lengthMismatch →
       s'.log.getLast? = some { status := .raised .lengthMismatch }))

/-- R79: every operation has a Result for every operand value, OK but for the reserved selector and a DECBUF
of odd length. -/
def Obligations.NoOtherExceptionExists : Prop :=
  ∀ i : Instr, ∃ r, perform i = .ok r ∧
    (r.status = .ok ↔ i ≠ .rsv7 ∧ ∀ inBuf, i = .decbuf inBuf → inBuf.length % 2 = 0)

/-- R17, R26: a Result holds a value on `status` and, when that is OK, on the data ports its operation drives;
a read of such a port gives the value the Result records for that very port, and a read of any other
port is a fault of the model, never a zero. -/
def Obligations.UndrivenPortsHoldNoValue : Prop :=
  (∀ (i : Instr) (r : Result) (p : OutPort), perform i = .ok r →
    ((∃ v, r.read p = .ok v) ↔ p = .status ∨ (r.status = .ok ∧ p ∈ Claim.drives i)) ∧
    (¬ (p = .status ∨ (r.status = .ok ∧ p ∈ Claim.drives i)) → r.read p = .error (.undrivenPort p))) ∧
  ∀ r : Result,
    r.read .status = .ok (.status r.status) ∧
    (∀ v, r.read .cw = .ok v ↔ ∃ x, r.cw = some x ∧ v = .byte x) ∧
    (∀ v, r.read .cwHi = .ok v ↔ ∃ x, r.cwHi = some x ∧ v = .byte x) ∧
    (∀ v, r.read .cwLo = .ok v ↔ ∃ x, r.cwLo = some x ∧ v = .byte x) ∧
    (∀ v, r.read .s = .ok v ↔ ∃ x, r.s = some x ∧ v = .syndrome x) ∧
    (∀ v, r.read .nOut = .ok v ↔ ∃ x, r.nOut = some x ∧ v = .nibble x) ∧
    (∀ v, r.read .corrected = .ok v ↔ ∃ x, r.corrected = some x ∧ v = .flag x) ∧
    (∀ v, r.read .bOut = .ok v ↔ ∃ x, r.bOut = some x ∧ v = .byte x) ∧
    (∀ v, r.read .correctedHi = .ok v ↔ ∃ x, r.correctedHi = some x ∧ v = .flag x) ∧
    (∀ v, r.read .correctedLo = .ok v ↔ ∃ x, r.correctedLo = some x ∧ v = .flag x) ∧
    (∀ v, r.read .outBuf = .ok v ↔ ∃ x, r.outBuf = some x ∧ v = .buffer x)

/-- R17, R26, R27: the block's output ports. After an operation, every port answers what it answers in the
Result of that operation, by its rule, and nothing of an earlier one; with no operation performed,
every port is undriven, `status` included. That the ports are read through the latest Result of the
log is the model's reading (notes/assumptions/9). -/
def Obligations.OutputPortsShowTheLatestResult : Prop :=
  (∀ (i : Instr) (s s' : State), exec i s = .next s' →
    ∃ r, perform i = .ok r ∧ ∀ p, s'.readOut p = r.read p) ∧
  ∀ (s : State) (p : OutPort), s.log = [] → s.readOut p = .error (.undrivenPort p)

/-- R21: the flags are outputs of DEC7 and DEC16 only, each 1 exactly when the syndrome of its codeword is
nonzero. -/
def Obligations.FlagsComeFromDec7AndDec16 : Prop :=
  ∀ (i : Instr) (r : Result), perform i = .ok r →
    (r.corrected ≠ none ↔ ∃ c, i = .dec7 c) ∧
    ((r.correctedHi ≠ none ∨ r.correctedLo ≠ none) ↔ ∃ h l, i = .dec16 h l) ∧
    (∀ c, i = .dec7 c → r.corrected = some (if Claim.syndromeOf c = 0 then 0 else 1)) ∧
    (∀ h l, i = .dec16 h l →
      r.correctedHi = some (if Claim.syndromeOf h = 0 then 0 else 1) ∧
      r.correctedLo = some (if Claim.syndromeOf l = 0 then 0 else 1))

/-- R83: at block level an operation after a failing one is performed normally: every list of operations has
a Result for each of them, by its own rule. -/
def Obligations.BlockGoesOnAfterAnError : Prop :=
  ∀ is : List Instr, ∃ rs, performAll is = .ok rs ∧ rs.length = is.length ∧
    ∀ (k : Nat) (i : Instr) (r : Result), is[k]? = some i → rs[k]? = some r → perform i = .ok r

/-! ## The code -/

/-- R45, R46: `unpack` reads the coded bits at the places `pack` puts them, container bit 7 is 0 after `pack`
and not read by `unpack`, and position k is container bit 7 − k. -/
def Obligations.LayoutIsOneTransform : Prop :=
  (∀ w : CodedBits, unpack (pack w) = w ∧ (pack w).getLsbD 7 = false ∧
    (pack w).getLsbD 6 = w.p1 ∧ (pack w).getLsbD 5 = w.p2 ∧ (pack w).getLsbD 4 = w.data.d1 ∧
    (pack w).getLsbD 3 = w.p3 ∧ (pack w).getLsbD 2 = w.data.d2 ∧ (pack w).getLsbD 1 = w.data.d3 ∧
    (pack w).getLsbD 0 = w.data.d4) ∧
  (∀ cw : Codeword, pack (unpack cw) = cw &&& 0x7F) ∧
  ([CodedBit.p1, .p2, .d1, .p3, .d2, .d3, .d4].map CodedBit.position = [1, 2, 3, 4, 5, 6, 7]) ∧
  ∀ (k : CodedBit) (cw : Codeword), 1 ≤ k.position ∧ k.position ≤ 7 ∧
    codedBit cw k = cw.getLsbD (7 - k.position)

/-- R47: the parity bits, and that parity bit p_j checks exactly the positions whose number has bit j − 1
set: flipping one coded bit changes exactly the check bits its position names. -/
def Obligations.ParityBitsCheckTheirPositions : Prop :=
  (∀ n : Nibble,
    (encodeNibble n).getLsbD 6 = (n.getLsbD 3 ^^ n.getLsbD 2 ^^ n.getLsbD 0) ∧
    (encodeNibble n).getLsbD 5 = (n.getLsbD 3 ^^ n.getLsbD 1 ^^ n.getLsbD 0) ∧
    (encodeNibble n).getLsbD 3 = (n.getLsbD 2 ^^ n.getLsbD 1 ^^ n.getLsbD 0)) ∧
  ∀ (cw : Codeword) (k : CodedBit) (j : Nat), 1 ≤ j → j ≤ 3 →
    (syndrome (cw ^^^ positionMask k.position)).getLsbD (j - 1) =
      ((syndrome cw).getLsbD (j - 1) ^^ k.position.testBit (j - 1))

/-- R49: a nonzero syndrome s flips container bit 7 − s and no other, never bit 7; a zero one flips nothing. -/
def Obligations.SyndromeNamesTheFlippedBit : Prop :=
  ∀ c : Codeword,
    (syndrome c = 0 → correctCodeword c = c) ∧
    (syndrome c ≠ 0 → ∀ i, i < 8 →
      (correctCodeword c).getLsbD i = (c.getLsbD i ^^ (i == 7 - (syndrome c).toNat))) ∧
    (correctCodeword c).getLsbD 7 = c.getLsbD 7 ∧
    syndrome (correctCodeword c) = 0

/-- R50: the sixteen valid codewords, their syndrome and top bit, their distances, and that every value of
the seven coded bits is within distance 1 of exactly one of them, so that eight decode to each nibble. -/
def Obligations.ValidCodewordsFormAPerfectCode : Prop :=
  ((List.range 16).map fun n => encodeNibble (BitVec.ofNat 4 n)) =
    [0x00, 0x69, 0x2A, 0x43, 0x4C, 0x25, 0x66, 0x0F, 0x70, 0x19, 0x5A, 0x33, 0x3C, 0x55, 0x16, 0x7F] ∧
  (∀ cw : Codeword, Claim.Valid cw ↔ syndrome cw = 0 ∧ cw.getLsbD 7 = false) ∧
  (∀ m n : Nibble, m ≠ n → 3 ≤ Claim.weight (encodeNibble m ^^^ encodeNibble n)) ∧
  (∀ k, ((List.range 16).filter fun n => Claim.weight (encodeNibble (BitVec.ofNat 4 n)) == k).length =
    if k = 0 ∨ k = 7 then 1 else if k = 3 ∨ k = 4 then 7 else 0) ∧
  (∀ c : Codeword, ∃ n : Nibble, ∀ m : Nibble, Claim.weight (c ^^^ encodeNibble m) ≤ 1 ↔ m = n) ∧
  ∀ n : Nibble, ((List.range 128).filter fun c => decodeNibble (BitVec.ofNat 8 c) == n).length = 8

/-- R62: the five laws of the encoder. -/
def Obligations.EncoderLaws : Prop :=
  (∀ m n : Nibble, encodeNibble m = encodeNibble n → m = n) ∧
  (∀ m n : Nibble, encodeNibble (m ^^^ n) = encodeNibble m ^^^ encodeNibble n) ∧
  ∀ n : Nibble, syndrome (encodeNibble n) = 0 ∧ (encodeNibble n).getLsbD 7 = false ∧
    Claim.bit (encodeNibble n) 4 ++ Claim.bit (encodeNibble n) 2 ++ Claim.bit (encodeNibble n) 1
      ++ Claim.bit (encodeNibble n) 0 = n

/-- R68: zero-error stability, single-bit correction, the byte round trip and bit-7 independence, of what the
machine does in every state without a fault. -/
def Obligations.DecoderLaws : Prop :=
  ∀ s : State, s.fault = none →
    (∀ n : Nibble, exec (.dec7 (encodeNibble n)) s = .next { s with
      opIndex := s.opIndex + 1
      log := s.log ++ [{ status := .ok, nOut := some n, corrected := some 0, s := some 0 }] }) ∧
    (∀ (n : Nibble) (i : Nat), i < 7 →
      exec (.dec7 (encodeNibble n ^^^ (1#8 <<< i))) s = .next { s with
        opIndex := s.opIndex + 1
        log := s.log ++ [{ status := .ok, nOut := some n, corrected := some 1,
                           s := some (BitVec.ofNat 3 (7 - i)) }] }) ∧
    (∀ b : Byte, exec (.dec16 (encodeNibble (highNibble b)) (encodeNibble (lowNibble b))) s = .next { s with
      opIndex := s.opIndex + 1
      log := s.log ++ [{ status := .ok, bOut := some b, correctedHi := some 0, correctedLo := some 0 }] }) ∧
    ∀ c d : Codeword,
      exec (.syn (c ^^^ 0x80)) s = exec (.syn c) s ∧ exec (.dec7 (c ^^^ 0x80)) s = exec (.dec7 c) s ∧
      exec (.dec16 (c ^^^ 0x80) d) s = exec (.dec16 c d) s ∧
      exec (.dec16 d (c ^^^ 0x80)) s = exec (.dec16 d c) s

/-- R66, R78: what DEC7 gives for a valid codeword with error pattern `e` on its coded bits. The status is
always OK; the nibble is right exactly for weight 0 or 1; `corrected` is 0 exactly when `e` is itself a
valid codeword, which 7 patterns of weight 3, 7 of weight 4, and those of weight 0 and 7 are. -/
def Obligations.TwoOrMoreErrorsDecodeWrongSilently : Prop :=
  (∀ (n : Nibble) (e : Codeword) (s : State), s.fault = none → e.getLsbD 7 = false →
    ∃ (m : Nibble) (f : Flag) (x : Syndrome),
      exec (.dec7 (encodeNibble n ^^^ e)) s = .next { s with
        opIndex := s.opIndex + 1
        log := s.log ++ [{ status := .ok, nOut := some m, corrected := some f, s := some x }] } ∧
      (m = n ↔ Claim.weight e ≤ 1) ∧ (f = 0 ↔ Claim.Valid e)) ∧
  ∀ w, ((List.range 128).filter fun e =>
      Claim.weight (BitVec.ofNat 8 e) == w && correctedFlag (BitVec.ofNat 8 e) == 0).length =
    if w = 0 ∨ w = 7 then 1 else if w = 3 ∨ w = 4 then 7 else 0

/-- R63: SYN, DEC7 and DEC16 complete for every 8-bit value, and no output depends on bit 7 of an input. -/
def Obligations.DecodersIgnoreBitSeven : Prop :=
  ∀ (c d : Codeword) (s : State), s.fault = none →
    (∃ t, exec (.syn c) s = .next t ∧ exec (.syn (c ^^^ 0x80)) s = .next t) ∧
    (∃ t, exec (.dec7 c) s = .next t ∧ exec (.dec7 (c ^^^ 0x80)) s = .next t) ∧
    (∃ t, exec (.dec16 c d) s = .next t ∧ exec (.dec16 (c ^^^ 0x80) d) s = .next t ∧
      exec (.dec16 c (d ^^^ 0x80)) s = .next t ∧ exec (.dec16 (c ^^^ 0x80) (d ^^^ 0x80)) s = .next t)

/-- R51: a byte is its two nibbles, the high one first. -/
def Obligations.ByteIsItsTwoNibbles : Prop :=
  (∀ b : Byte, joinNibbles (highNibble b) (lowNibble b) = b ∧
    (∀ i, i < 4 → (highNibble b).getLsbD i = b.getLsbD (4 + i) ∧ (lowNibble b).getLsbD i = b.getLsbD i)) ∧
  ∀ h l : Nibble, highNibble (joinNibbles h l) = h ∧ lowNibble (joinNibbles h l) = l

/-! ## Buffers -/

/-- R31, R32: one byte at any index of the buffer; a write at the end appends it, a write inside sets that
byte and no other. The faults outside the buffers are the model's (notes/assumptions/10). -/
def Obligations.BufferAccessIsByByte : Prop :=
  (∀ (inBuf : Buffer) (i : Nat),
    (∀ b, memRead inBuf i = .ok b ↔ inBuf[i]? = some b) ∧
    (inBuf.length ≤ i → memRead inBuf i = .error (.readOutOfRange i))) ∧
  ∀ (out : Buffer) (v : Byte),
    memWrite out out.length v = .ok (out ++ [v]) ∧
    (∀ j, j < out.length → ∃ o, memWrite out j v = .ok o ∧ o.length = out.length ∧ o[j]? = some v ∧
      ∀ k, k ≠ j → o[k]? = out[k]?) ∧
    ∀ j, out.length < j → memWrite out j v = .error (.writeOutOfOrder j)

/-- R71: the length laws, and that no change of the bits of an encoded buffer makes DECBUF raise. -/
def Obligations.BufferLengthLaws : Prop :=
  (∀ (inBuf out : Buffer) (r : Result), perform (.encbuf inBuf) = .ok r → r.outBuf = some out →
    out.length = 2 * inBuf.length ∧
    ∀ received : Buffer, received.length = out.length →
      ∃ r', perform (.decbuf received) = .ok r' ∧ r'.status = .ok) ∧
  ∀ (inBuf out : Buffer) (r : Result), perform (.decbuf inBuf) = .ok r → r.outBuf = some out →
    out.length = inBuf.length / 2

/-- R72: DECBUF gives back exactly the buffer that ENCBUF encoded, as long as no received codeword differs
from the one sent in more than one of its bits 0 to 6; flips of bit 7 are free. -/
def Obligations.RoundTripUnderCorrectableNoise : Prop :=
  ∀ (buf received sent : Buffer) (s s' t : State) (r : Result),
    exec (.encbuf buf) s = .next s' → s'.log.getLast? = some r → r.outBuf = some sent →
    received.length = sent.length →
    (∀ (k : Nat) (x y : Byte), sent[k]? = some x → received[k]? = some y → Claim.weight (x ^^^ y) ≤ 1) →
    t.fault = none → t.config.admits received.length = true →
    exec (.decbuf received) t = .next { t with
      opIndex := t.opIndex + 1
      log := t.log ++ [{ status := .ok, outBuf := some buf }] }

/-- R63, R70: DECBUF does not look at bit 7 of any byte: two buffers that agree on bits 0 to 6 of every byte
give the same outcome in every state. -/
def Obligations.DecbufIgnoresBitSeven : Prop :=
  ∀ (x y : Buffer) (s : State), x.map (· &&& 0x7F#8) = y.map (· &&& 0x7F#8) →
    exec (.decbuf x) s = exec (.decbuf y) s

/-- R73: a buffer operation hands back the whole `OUT` with status OK, or, for a DECBUF of odd length only, no
output but a non-OK status; the host's list, with `IN`, is unchanged. -/
def Obligations.BufferOperationsAreAtomic : Prop :=
  ∀ (inBuf : Buffer) (s s' : State),
    (exec (.encbuf inBuf) s = .next s' → s'.run = s.run ∧ ∃ out,
      s'.log = s.log ++ [{ status := .ok, outBuf := some out }] ∧ out.length = 2 * inBuf.length) ∧
    (exec (.decbuf inBuf) s = .next s' → s'.run = s.run ∧
      ((inBuf.length % 2 = 0 ∧ ∃ out,
        s'.log = s.log ++ [{ status := .ok, outBuf := some out }] ∧ out.length = inBuf.length / 2) ∨
       (inBuf.length % 2 = 1 ∧ s'.log = s.log ++ [{ status := .raised .lengthMismatch }])))

/-! ## The assembler syntax -/

/-- R57: a line that spells an operation in decimal assembles to that operation, for every operation and every
operand. The spelling of an operation is the model's own (notes/assumptions/11). -/
def Obligations.AssembleInvertsSpell : Prop :=
  ∀ i : Instr, assembleLine (spell i) = .ok (some i)

/-- R57: an operand that does not fit its port's width spells no operation. Of a whole line, with or without
a comment at its end: in every one-operand form, in either operand of `dec16` (the other one any
integer for the first place, one that fits for the second), and at every place of a byte list, after
any number of bytes that fit and whatever follows the comma. Every integer spelling of R57 is meant,
decimal, hexadecimal or binary. That the rejection names the width and the value is the model's
(notes/assumptions/11). -/
def Obligations.AssemblerRejectsTooWideOperands : Prop :=
  ∀ (cs : List Char) (v : Nat) (tail : List Char), parseInteger cs = some v →
    (tail = [] ∨ ∃ text, tail = ';' :: text) →
    (16 ≤ v → assembleLine (Mnemonic.enc4.spell ++ ' ' :: (cs ++ tail)) = .error (.operandTooWide 4 v)) ∧
    (256 ≤ v →
      (∀ k : Mnemonic, k = .enc8 ∨ k = .syn ∨ k = .dec7 →
        assembleLine (k.spell ++ ' ' :: (cs ++ tail)) = .error (.operandTooWide 8 v)) ∧
      (∀ (other : List Char) (u : Nat), parseInteger other = some u →
        assembleLine (Mnemonic.dec16.spell ++ ' ' :: (cs ++ ',' :: ' ' :: (other ++ tail))) =
          .error (.operandTooWide 8 v) ∧
        (u < 256 → assembleLine (Mnemonic.dec16.spell ++ ' ' :: (other ++ ',' :: ' ' :: (cs ++ tail))) =
          .error (.operandTooWide 8 v))) ∧
      ∀ k : Mnemonic, k = .encbuf ∨ k = .decbuf →
        ∀ before : List (List Char), (∀ w ∈ before, ∃ u, parseInteger w = some u ∧ u < 256) →
          assembleLine (k.spell ++ ' ' :: '[' :: (before.flatMap (· ++ [',', ' ']) ++ (cs ++ ']' :: tail))) =
            .error (.operandTooWide 8 v) ∧
          ∀ after : List Char,
            assembleLine (k.spell ++ ' ' :: '[' :: (before.flatMap (· ++ [',', ' ']) ++ (cs ++ ',' :: after))) =
              .error (.operandTooWide 8 v))
end

