-- ==== Sys2Proof/Laws/Assembler.lean ====
section
/-! SUPPORT. How the tokens of a line come from its characters, and what integer words are
(spec/30_encoding.md R57). -/

namespace Sys2Proof.Machine

/-- The character belongs to a word: it is no separator and does not start a comment. -/
def wordChar (ch : Char) : Bool :=
  ch ≠ ';' && ch ≠ ' ' && ch ≠ '\t' && ch ≠ ',' && ch ≠ '[' && ch ≠ ']'

/-- A nonempty string of word characters. -/
def IsWord (w : List Char) : Prop := w ≠ [] ∧ w.all wordChar = true

/-- What ends a line: nothing, or a comment. -/
def IsLineEnd (cs : List Char) : Prop := cs = [] ∨ ∃ text, cs = ';' :: text

theorem Mnemonic.isWord_spell (k : Mnemonic) : IsWord k.spell := by
  cases k <;> exact ⟨by decide, by decide⟩

@[simp] theorem flushWord_nil (ts : List Token) : flushWord [] ts = ts := rfl

theorem flushWord_reverse (w : List Char) (ts : List Token) (h : w ≠ []) :
    flushWord w.reverse ts = .word w :: ts := by
  cases hw : w.reverse with
  | nil => exact absurd (List.reverse_eq_nil_iff.1 hw) h
  | cons a l =>
    show Token.word (a :: l).reverse :: ts = _
    rw [← hw, List.reverse_reverse]

/-- Word characters go to the word being read. -/
theorem lexLine_append (w rest : List Char) : ∀ cur, w.all wordChar = true →
    lexLine (w ++ rest) cur = lexLine rest (w.reverse ++ cur) := by
  induction w with
  | nil => intro cur _; rfl
  | cons ch w ih =>
    intro cur h
    simp only [List.all_cons, wordChar, Bool.and_eq_true, decide_eq_true_eq] at h
    obtain ⟨⟨⟨⟨⟨⟨h1, h2⟩, h3⟩, h4⟩, h5⟩, h6⟩, h7⟩ := h
    rw [List.cons_append, lexLine]
    simp only [h1, h2, h3, h4, h5, h6, or_self, if_false]
    rw [ih _ (by simpa [wordChar] using h7)]
    simp

/-! ### One word and what follows it -/

theorem lexLine_lineEnd (cs : List Char) (h : IsLineEnd cs) : lexLine cs [] = [] := by
  rcases h with rfl | ⟨text, rfl⟩ <;> rfl

theorem lexLine_word_end (w cs : List Char) (h : IsWord w) (he : IsLineEnd cs) :
    lexLine (w ++ cs) [] = [.word w] := by
  rw [lexLine_append _ _ _ h.2]
  rcases he with rfl | ⟨text, rfl⟩ <;> simp [lexLine, flushWord_reverse _ _ h.1]

theorem lexLine_word_blank (w rest : List Char) (h : IsWord w) :
    lexLine (w ++ ' ' :: rest) [] = .word w :: lexLine rest [] := by
  rw [lexLine_append _ _ _ h.2]
  simp [lexLine, flushWord_reverse _ _ h.1]

theorem lexLine_word_comma (w rest : List Char) (h : IsWord w) :
    lexLine (w ++ ',' :: rest) [] = .word w :: .comma :: lexLine rest [] := by
  rw [lexLine_append _ _ _ h.2]
  simp [lexLine, flushWord_reverse _ _ h.1]

theorem lexLine_word_rbrack (w rest : List Char) (h : IsWord w) :
    lexLine (w ++ ']' :: rest) [] = .word w :: .rbrack :: lexLine rest [] := by
  rw [lexLine_append _ _ _ h.2]
  simp [lexLine, flushWord_reverse _ _ h.1]

@[simp] theorem lexLine_blank (rest : List Char) : lexLine (' ' :: rest) [] = lexLine rest [] := rfl

@[simp] theorem lexLine_lbrack (rest : List Char) : lexLine ('[' :: rest) [] = .lbrack :: lexLine rest [] := rfl

/-! ### Integer words -/

theorem wordChar_of_digitValue (ch : Char) (d : Nat) (h : digitValue ch = some d) : wordChar ch = true := by
  by_contra hc
  have hs : ch = ';' ∨ ch = ' ' ∨ ch = '\t' ∨ ch = ',' ∨ ch = '[' ∨ ch = ']' := by
    simp only [wordChar, Bool.and_eq_true, decide_eq_true_eq] at hc
    tauto
  rcases hs with rfl | rfl | rfl | rfl | rfl | rfl <;> exact absurd h (by decide +revert)

theorem all_wordChar_of_digitsValue (base : Nat) (cs : List Char) :
    ∀ acc v, digitsValue base cs acc = some v → cs.all wordChar = true := by
  induction cs with
  | nil => intro acc v _; rfl
  | cons ch rest ih =>
    intro acc v h
    rw [digitsValue] at h
    cases hd : digitValue ch with
    | none => simp [hd] at h
    | some d =>
      simp only [hd] at h
      split at h
      · simp [wordChar_of_digitValue _ _ hd, ih _ _ h]
      · cases h

theorem isWord_of_digits (base : Nat) (cs : List Char) (v : Nat) (h : digits base cs = some v) : IsWord cs := by
  cases cs with
  | nil => cases h
  | cons ch rest => exact ⟨by simp, all_wordChar_of_digitsValue base _ 0 v h⟩

/-- An integer is one word. -/
theorem isWord_of_parseInteger (cs : List Char) (v : Nat) (h : parseInteger cs = some v) : IsWord cs := by
  unfold parseInteger at h
  split at h
  · have := isWord_of_digits _ _ _ h
    exact ⟨by simp, by simpa [wordChar] using this.2⟩
  · have := isWord_of_digits _ _ _ h
    exact ⟨by simp, by simpa [wordChar] using this.2⟩
  · exact isWord_of_digits _ _ _ h

theorem isWord_of_parseOperand (w : Nat) (cs : List Char) (b : BitVec w) (h : parseOperand w cs = .ok b) :
    IsWord cs := by
  cases hv : parseInteger cs with
  | none => simp [parseOperand, hv] at h
  | some v => exact isWord_of_parseInteger _ _ hv

theorem parseOperand_tooWide (w : Nat) (cs : List Char) (v : Nat) (hv : parseInteger cs = some v)
    (h : 2 ^ w ≤ v) : parseOperand w cs = .error (.operandTooWide w v) := by
  simp [parseOperand, hv, Nat.not_lt.mpr h]

theorem parseOperand_fits (w : Nat) (cs : List Char) (v : Nat) (hv : parseInteger cs = some v)
    (h : v < 2 ^ w) : parseOperand w cs = .ok (BitVec.ofNat w v) := by
  simp [parseOperand, hv, h]

/-- The decimal spelling of a value below 256 reads back as that value. -/
theorem parseInteger_spellNat (v : Nat) (h : v < 256) : parseInteger (spellNat v) = some v := by
  have key : ∀ b : Byte, parseInteger (spellNat b.toNat) = some b.toNat := by decide
  simpa [Nat.mod_eq_of_lt h] using key (BitVec.ofNat 8 v)

theorem parseOperand_spellNat {w : Nat} (x : BitVec w) (h : w ≤ 8) :
    parseOperand w (spellNat x.toNat) = .ok x := by
  have hx : x.toNat < 256 := lt_of_lt_of_le x.isLt (by simpa using Nat.pow_le_pow_right (n := 2) (by omega) h)
  rw [parseOperand_fits w _ _ (parseInteger_spellNat _ hx) x.isLt, BitVec.ofNat_toNat, BitVec.setWidth_eq]

end Sys2Proof.Machine
end

