-- ==== Sys2Proof/Laws/State.lean ====
section
/-! SUPPORT. The fields of a state after each update of it. -/

namespace Sys2Proof.Machine

@[simp] theorem State.record_config (s : State) (r : Result) : (s.record r).config = s.config := rfl

@[simp] theorem State.record_run (s : State) (r : Result) : (s.record r).run = s.run := rfl

@[simp] theorem State.record_opIndex (s : State) (r : Result) : (s.record r).opIndex = s.opIndex + 1 := rfl

@[simp] theorem State.record_log (s : State) (r : Result) : (s.record r).log = s.log ++ [r] := rfl

@[simp] theorem State.record_fault (s : State) (r : Result) :
    (s.record r).fault = match r.status.error? with
      | some e => some e
      | none => s.fault := rfl

theorem State.record_of_ok (s : State) (r : Result) (h : r.status = .ok) :
    s.record r = { s with log := s.log ++ [r], opIndex := s.opIndex + 1 } := by
  simp [State.record, h, Status.error?]

theorem State.record_of_raised (s : State) (r : Result) (e : ErrorStatus) (h : r.status = .raised e) :
    s.record r = { s with log := s.log ++ [r], opIndex := s.opIndex + 1, fault := some e } := by
  simp [State.record, h, Status.error?]

@[simp] theorem State.ofRun_config (c : Config) (run : List Presented) : (State.ofRun c run).config = c := rfl

@[simp] theorem State.ofRun_run (c : Config) (run : List Presented) : (State.ofRun c run).run = run := rfl

@[simp] theorem State.ofRun_opIndex (c : Config) (run : List Presented) : (State.ofRun c run).opIndex = 0 := rfl

@[simp] theorem State.ofRun_log (c : Config) (run : List Presented) : (State.ofRun c run).log = [] := rfl

@[simp] theorem State.ofRun_fault (c : Config) (run : List Presented) : (State.ofRun c run).fault = none := rfl

/-- `withFetchWord` puts the selector's presentation where the next step fetches. -/
theorem State.fetch_withFetchWord (s : State) (nbits w : Nat) (op : Selector)
    (h : selectorOfWord nbits w = .ok op) :
    (s.withFetchWord nbits w).fetch = some (Presented.idle op) := by
  have hl : (s.run.take s.opIndex ++ List.replicate (s.opIndex - s.run.length) (Presented.idle 0)).length
      = s.opIndex := by simp; omega
  simp only [State.withFetchWord, h, State.fetch]
  rw [List.getElem?_append_right (by omega), hl]
  simp

end Sys2Proof.Machine
end

