-- ==== Sys2Proof/Laws/Ops.lean ====
section
/-! SUPPORT. What each shared operation can do, said once. -/

namespace Sys2Proof.Machine

@[simp] theorem Status.error?_ok : Status.error? .ok = none := rfl

@[simp] theorem Status.error?_raised (e : ErrorStatus) : Status.error? (.raised e) = some e := rfl

theorem Status.error?_eq_none (st : Status) : st.error? = none ↔ st = .ok := by
  cases st <;> simp

/-! ### Buffer access -/

theorem memRead_of_some (inBuf : Buffer) (i : Nat) (b : Byte) (h : inBuf[i]? = some b) :
    memRead inBuf i = .ok b := by
  simp [memRead, h]

theorem memWrite_append (out : Buffer) (v : Byte) (j : Nat) (h : j = out.length) :
    memWrite out j v = .ok (out ++ [v]) := by
  simp [memWrite, h]

theorem memWrite_set (out : Buffer) (v : Byte) (j : Nat) (h : j < out.length) :
    memWrite out j v = .ok (out.set j v) := by
  simp [memWrite, h]

theorem memWrite_gap (out : Buffer) (v : Byte) (j : Nat) (h : out.length < j) :
    memWrite out j v = .error (.writeOutOfOrder j) := by
  simp [memWrite, Nat.not_lt.mpr h.le, h.ne']

/-! ### The counted loop -/

@[simp] theorem forUpTo_zero (body : Nat → Buffer → Except Fault Buffer) (out : Buffer) :
    forUpTo body 0 out = .ok out := rfl

theorem forUpTo_succ (body : Nat → Buffer → Except Fault Buffer) (m : Nat) (out : Buffer) :
    forUpTo body (m + 1) out = (forUpTo body m out).bind (body m) := rfl

/-- A loop whose body turns `f i` into `f (i + 1)` for each `i` of its range turns `f 0` into `f m`. -/
theorem forUpTo_of_steps (body : Nat → Buffer → Except Fault Buffer) (f : Nat → Buffer) (m : Nat)
    (h : ∀ i, i < m → body i (f i) = .ok (f (i + 1))) : forUpTo body m (f 0) = .ok (f m) := by
  induction m with
  | zero => rfl
  | succ m ih =>
    rw [forUpTo_succ, ih fun i hi => h i (by omega)]
    exact h m (by omega)

/-! ### Concluding an operation -/

theorem conclude_of_fault (r : Except Fault Result) (s : State) (e : ErrorStatus) (h : s.fault = some e) :
    conclude r s = .fault (.runFaulted e) := by
  simp [conclude, h]

theorem conclude_ok (r : Result) (s : State) (h : s.fault = none) :
    conclude (.ok r) s = .next (s.record r) := by
  simp [conclude, h]

/-- `conclude` answers a next state exactly by recording a Result in a state without a fault. -/
theorem conclude_next_iff (r : Except Fault Result) (s s' : State) :
    conclude r s = .next s' ↔ s.fault = none ∧ ∃ x, r = .ok x ∧ s' = s.record x := by
  unfold conclude
  cases hf : s.fault <;> cases r <;> simp [eq_comm]

theorem concludeBuffer_of_fault (inBuf : Buffer) (r : Except Fault Result) (s : State) (e : ErrorStatus)
    (h : s.fault = some e) : concludeBuffer inBuf r s = .fault (.runFaulted e) := by
  simp [concludeBuffer, h]

theorem concludeBuffer_of_admits (inBuf : Buffer) (r : Except Fault Result) (s : State)
    (h : s.config.admits inBuf.length = true) : concludeBuffer inBuf r s = conclude r s := by
  unfold concludeBuffer conclude
  cases s.fault <;> simp [h]

theorem concludeBuffer_of_overlong (inBuf : Buffer) (r : Except Fault Result) (s : State)
    (hf : s.fault = none) (h : s.config.admits inBuf.length = false) :
    concludeBuffer inBuf r s = .refused (.bufferTooLong inBuf.length) := by
  simp [concludeBuffer, hf, h]

/-- `concludeBuffer` answers a next state exactly by recording the Result of an admitted buffer. -/
theorem concludeBuffer_next_iff (inBuf : Buffer) (r : Except Fault Result) (s s' : State) :
    concludeBuffer inBuf r s = .next s' ↔
      s.fault = none ∧ s.config.admits inBuf.length = true ∧ ∃ x, r = .ok x ∧ s' = s.record x := by
  cases ha : s.config.admits inBuf.length with
  | true => rw [concludeBuffer_of_admits _ _ _ ha, conclude_next_iff]; simp
  | false =>
    cases hf : s.fault with
    | none => simp [concludeBuffer_of_overlong _ _ _ hf ha]
    | some e => simp [concludeBuffer_of_fault _ _ _ _ hf]

end Sys2Proof.Machine
end

