-- ==== Sys2Proof/Laws/Buffers.lean ====
section
/-! SUPPORT. The loops of ENCBUF and DECBUF as plain list functions (spec/42_buffer.md R69, R70). -/

namespace Sys2Proof.Machine

/-- The two codewords of a byte, high nibble first (R61). -/
def codewordPair (b : Byte) : Buffer := [encodeNibble (highNibble b), encodeNibble (lowNibble b)]

/-- The bytes of the consecutive codeword pairs of a buffer; a last unpaired codeword is dropped. -/
def decodePairs : Buffer → Buffer
  | h :: l :: rest => decodeByte h l :: decodePairs rest
  | [_] => []
  | [] => []

@[simp] theorem length_codewordPair (b : Byte) : (codewordPair b).length = 2 := rfl

theorem length_flatMap_codewordPair (inBuf : Buffer) : (inBuf.flatMap codewordPair).length = 2 * inBuf.length := by
  induction inBuf with
  | nil => rfl
  | cons b rest ih => simp [ih]; omega

theorem length_decodePairs (inBuf : Buffer) : (decodePairs inBuf).length = inBuf.length / 2 := by
  induction inBuf using decodePairs.induct with
  | case1 h l rest ih => simp [decodePairs, ih]; omega
  | case2 h => simp [decodePairs]
  | case3 => rfl

theorem getElem?_decodePairs (inBuf : Buffer) (i : Nat) (h l : Byte) (hh : inBuf[2 * i]? = some h)
    (hl : inBuf[2 * i + 1]? = some l) : (decodePairs inBuf)[i]? = some (decodeByte h l) := by
  induction inBuf using decodePairs.induct generalizing i with
  | case1 x y rest ih =>
    cases i with
    | zero => simp_all [decodePairs]
    | succ i => simpa [decodePairs] using ih i (by simpa [Nat.mul_add] using hh) (by simpa [Nat.mul_add] using hl)
  | case2 x => simp at hl
  | case3 => simp at hl

theorem getElem?_flatMap_codewordPair (inBuf : Buffer) (i : Nat) (b : Byte) (h : inBuf[i]? = some b) :
    (inBuf.flatMap codewordPair)[2 * i]? = some (encodeNibble (highNibble b)) ∧
    (inBuf.flatMap codewordPair)[2 * i + 1]? = some (encodeNibble (lowNibble b)) := by
  induction inBuf generalizing i with
  | nil => simp at h
  | cons x rest ih =>
    cases i with
    | zero => simp_all [codewordPair]
    | succ i =>
      have := ih i (by simpa using h)
      simpa [codewordPair, Nat.mul_add] using this

/-- ENCBUF's loop gives the codeword pairs of the bytes in order (R69). -/
theorem encodeBuffer_eq (inBuf : Buffer) : encodeBuffer inBuf = .ok (inBuf.flatMap codewordPair) := by
  have key := forUpTo_of_steps (encodeStep inBuf) (fun i => (inBuf.take i).flatMap codewordPair) inBuf.length ?_
  · simpa [encodeBuffer] using key
  · intro i hi
    have hl : ((inBuf.take i).flatMap codewordPair).length = 2 * i := by
      rw [length_flatMap_codewordPair, List.length_take]; omega
    have hs : inBuf.take (i + 1) = inBuf.take i ++ [inBuf[i]] := by simp
    unfold encodeStep
    rw [memRead_of_some inBuf i inBuf[i] (by simp [hi])]
    show (memWrite _ (2 * i) _).bind _ = _
    rw [memWrite_append _ _ _ hl.symm]
    show memWrite _ (2 * i + 1) _ = _
    rw [memWrite_append _ _ _ (by simp [hl]), hs]
    rw [List.flatMap_append]
    simp [codewordPair]

/-- DECBUF's loop gives the bytes of the codeword pairs in order (R70). -/
theorem decodeBuffer_eq (inBuf : Buffer) : decodeBuffer inBuf = .ok (decodePairs inBuf) := by
  have key := forUpTo_of_steps (decodeStep inBuf) (fun i => (decodePairs inBuf).take i) (inBuf.length / 2) ?_
  · have ht : (decodePairs inBuf).take (inBuf.length / 2) = decodePairs inBuf := by
      rw [← length_decodePairs]; exact List.take_length
    simpa [decodeBuffer, ht] using key
  · intro i hi
    have h0 : 2 * i < inBuf.length := by omega
    have h1 : 2 * i + 1 < inBuf.length := by omega
    have hg := getElem?_decodePairs inBuf i inBuf[2 * i] inBuf[2 * i + 1] (by simp [h0]) (by simp [h1])
    have hl : i < (decodePairs inBuf).length := by rw [length_decodePairs]; exact hi
    unfold decodeStep
    rw [memRead_of_some inBuf (2 * i) inBuf[2 * i] (by simp [h0])]
    show (memRead inBuf (2 * i + 1)).bind _ = _
    rw [memRead_of_some inBuf (2 * i + 1) inBuf[2 * i + 1] (by simp [h1])]
    show memWrite _ i _ = _
    rw [memWrite_append _ _ _ (by simp; omega), List.take_add_one, hg]
    simp

/-- The Result of ENCBUF (R69). -/
theorem resultEncbuf_eq (inBuf : Buffer) :
    resultEncbuf inBuf = .ok (bufferResult (inBuf.flatMap codewordPair)) := by
  rw [resultEncbuf, encodeBuffer_eq]; rfl

/-- The Result of DECBUF for an even length (R70). -/
theorem resultDecbuf_even (inBuf : Buffer) (h : inBuf.length % 2 = 0) :
    resultDecbuf inBuf = .ok (bufferResult (decodePairs inBuf)) := by
  rw [resultDecbuf, if_neg (by omega), decodeBuffer_eq]; rfl

/-- The Result of DECBUF for an odd length (R70, R75). -/
theorem resultDecbuf_odd (inBuf : Buffer) (h : inBuf.length % 2 = 1) :
    resultDecbuf inBuf = .ok (raise .lengthMismatch) := by
  rw [resultDecbuf, if_pos (by omega)]

end Sys2Proof.Machine
end

