-- ==== Sys2Proof/Laws/Code.lean ====
section
/-! SUPPORT. The model's layout functions give the bit formulas of the rules, checked at every value of
their ports (spec/30_encoding.md R45 to R49). -/

namespace Sys2Proof.Machine

theorem encodeNibble_eq (n : Nibble) : encodeNibble n = Claim.codeword n := by
  revert n; decide

theorem syndrome_eq (c : Codeword) : syndrome c = Claim.syndromeOf c := by
  revert c; decide

theorem correctCodeword_eq (c : Codeword) : correctCodeword c = Claim.corrected c := by
  unfold correctCodeword Claim.corrected positionMask containerBit
  rw [syndrome_eq]
  by_cases h : Claim.syndromeOf c = 0 <;> simp [h]

theorem decodeNibble_eq (c : Codeword) : decodeNibble c = Claim.nibble c := by
  unfold decodeNibble Claim.nibble
  rw [correctCodeword_eq]
  rfl

theorem correctedFlag_eq (c : Codeword) : correctedFlag c = Claim.flag c := by
  unfold correctedFlag Claim.flag
  rw [syndrome_eq]
  by_cases h : Claim.syndromeOf c = 0 <;> simp [h]

end Sys2Proof.Machine
end

