-- ==== Sys2Proof/Laws/Exec.lean ====
section
/-! SUPPORT. What `exec` and `step` can do, said once for every operation (spec/10_state.md R25). -/

namespace Sys2Proof.Machine

/-- In a state without a fault, an operation that can be presented is concluded with its block-level Result. -/
theorem exec_eq_conclude (i : Instr) (s : State) (h : i.wf s.config = true) :
    exec i s = conclude (perform i) s := by
  cases i with
  | encbuf inBuf => exact concludeBuffer_of_admits _ _ _ h
  | decbuf inBuf => exact concludeBuffer_of_admits _ _ _ h
  | _ => rfl

/-- `exec` answers a next state exactly by recording the block-level Result of an operation that can be
presented, in a state without a fault. -/
theorem exec_next_iff (i : Instr) (s s' : State) :
    exec i s = .next s' ↔
      s.fault = none ∧ i.wf s.config = true ∧ ∃ r, perform i = .ok r ∧ s' = s.record r := by
  cases i with
  | encbuf inBuf => exact concludeBuffer_next_iff _ _ _ _
  | decbuf inBuf => exact concludeBuffer_next_iff _ _ _ _
  | _ => rw [exec_eq_conclude _ _ rfl, conclude_next_iff]; simp [Instr.wf]

/-- A faulted state has no step for any operation (R84). -/
theorem exec_of_fault (i : Instr) (s : State) (e : ErrorStatus) (h : s.fault = some e) :
    exec i s = .fault (.runFaulted e) := by
  cases i with
  | encbuf inBuf => exact concludeBuffer_of_fault _ _ _ _ h
  | decbuf inBuf => exact concludeBuffer_of_fault _ _ _ _ h
  | _ => rw [exec_eq_conclude _ _ rfl]; exact conclude_of_fault _ _ _ h

/-- `step` answers a next state exactly when `exec` of the presented operation does. -/
theorem step_next_iff (s s' : State) :
    step s = .next s' ↔ ∃ p, s.run[s.opIndex]? = some p ∧ exec (decode p) s = .next s' := by
  unfold step State.fetch
  cases hf : s.fault with
  | none => cases hp : s.run[s.opIndex]? <;> simp
  | some e =>
    constructor
    · simp
    · rintro ⟨p, -, h⟩
      simp [exec_of_fault _ _ _ hf] at h

/-! ### Runs of several steps -/

theorem run_succ_of_next (k : Nat) (s s' : State) (h : step s = .next s') :
    core.run (k + 1) s = core.run k s' := by
  have h' : core.step s = .next s' := h
  simp only [Host.Core.run, h']

theorem run_succ_of_fault (k : Nat) (s : State) (f : Fault) (h : step s = .fault f) :
    core.run (k + 1) s = .fault f := by
  have h' : core.step s = .fault f := h
  simp only [Host.Core.run, h']

theorem run_succ_of_refused (k : Nat) (s : State) (f : Refusal) (h : step s = .refused f) :
    core.run (k + 1) s = .refused f := by
  have h' : core.step s = .refused f := h
  simp only [Host.Core.run, h']

end Sys2Proof.Machine
end

