-- ==== Sys2Proof/Laws/PerInstr.lean ====
section
/-! SUPPORT. A statement about each operation as syntax: its row of spec/30_encoding.md R53 is the only one
that decodes to it. -/

namespace Sys2Proof.Laws.SelectorUnique

/-- Every presentation that decodes to the operation carries the selector the encoder gives it. -/
def Statement (i : Instr) : Prop := ∀ p : Presented, decode p = i → p.op = (encode i).op

/-- The selector values a presentation can carry. -/
theorem selector_cases (x : Selector) :
    x = 0 ∨ x = 1 ∨ x = 2 ∨ x = 3 ∨ x = 4 ∨ x = 5 ∨ x = 6 ∨ x = 7 := by
  revert x; decide

/-- Presentations that decode alike carry the same selector. -/
theorem selector_of_decode (p q : Presented) (h : decode p = decode q) : p.op = q.op := by
  obtain ⟨op, _⟩ := p
  obtain ⟨op', _⟩ := q
  rcases selector_cases op with rfl | rfl | rfl | rfl | rfl | rfl | rfl | rfl <;>
    rcases selector_cases op' with rfl | rfl | rfl | rfl | rfl | rfl | rfl | rfl <;>
    first
    | rfl
    | cases h

theorem enc4 (n : Nibble) : Statement (.enc4 n) := fun p h => selector_of_decode p _ h

theorem enc8 (b : Byte) : Statement (.enc8 b) := fun p h => selector_of_decode p _ h

theorem encbuf (inBuf : Buffer) : Statement (.encbuf inBuf) := fun p h => selector_of_decode p _ h

theorem syn (c : Codeword) : Statement (.syn c) := fun p h => selector_of_decode p _ h

theorem dec7 (c : Codeword) : Statement (.dec7 c) := fun p h => selector_of_decode p _ h

theorem dec16 (cHi cLo : Codeword) : Statement (.dec16 cHi cLo) := fun p h => selector_of_decode p _ h

theorem decbuf (inBuf : Buffer) : Statement (.decbuf inBuf) := fun p h => selector_of_decode p _ h

theorem rsv7 : Statement .rsv7 := fun p h => selector_of_decode p (encode .rsv7) h

end Sys2Proof.Laws.SelectorUnique
end

