-- ==== Sys2Proof/Tests/Slice0.lean ====
section
/-! SUPPORT. Tests. Expected values come from spec/95_test_vectors.md and the worked examples of the rules
named beside each test; none is the model's own answer. The second part gives, for every statement with
hypotheses, a state and operands that meet them. -/

namespace Sys2Proof.Tests

open Sys2Proof.Machine

/-! ### Helpers -/

/-- Ports that carry a different value on each operand port, so that a decoder that takes a wrong one
shows. -/
def ports (op : Selector) : Presented :=
  { op := op, n := 0xB, b := 0xA5, c := 0x37, cHi := 0x1A, cLo := 0x21, inBuf := [0x69, 0x2A, 0x43, 0x4C] }

/-- The state before the first operation of a run, with `MAX_BUF_LEN = 4`. -/
def start (run : List Presented) : State := State.ofRun { maxBufLen := some 4 } run

/-- The Result that an outcome's next state logged last. -/
def lastResult : Host.Outcome State Fault Refusal → Option Result
  | .next s => s.log.getLast?
  | _ => none

/-- The sticky fault of an outcome's next state. -/
def nextFault : Host.Outcome State Fault Refusal → Option ErrorStatus
  | .next s => s.fault
  | _ => none

/-- The value of a computation that did not fail. -/
def value? {ε α : Type} : Except ε α → Option α
  | .ok a => some a
  | .error _ => none

/-! ### WellFormed refuses an ill-formed term for each check -/

theorem test_wf_refuses_long_encbuf : (Instr.encbuf [1, 2, 3]).wf { maxBufLen := some 2 } = false := by decide

theorem test_wf_refuses_long_decbuf : (Instr.decbuf [1, 2, 3, 4]).wf { maxBufLen := some 3 } = false := by decide

theorem test_wf_admits_the_bound : (Instr.encbuf [1, 2]).wf { maxBufLen := some 2 } = true := by decide

/-! ### Decoding: the selector words of R53 written out -/

theorem test_decode_enc4 : decode (ports 0b000) = .enc4 0xB := by decide

theorem test_decode_enc8 : decode (ports 0b001) = .enc8 0xA5 := by decide

theorem test_decode_encbuf : decode (ports 0b010) = .encbuf [0x69, 0x2A, 0x43, 0x4C] := by decide

theorem test_decode_syn : decode (ports 0b011) = .syn 0x37 := by decide

theorem test_decode_dec7 : decode (ports 0b100) = .dec7 0x37 := by decide

theorem test_decode_dec16 : decode (ports 0b101) = .dec16 0x1A 0x21 := by decide

theorem test_decode_decbuf : decode (ports 0b110) = .decbuf [0x69, 0x2A, 0x43, 0x4C] := by decide

theorem test_decode_rsv7 : decode (ports 0b111) = .rsv7 := by decide

/-- The selector's own width, 3 bits, is enough; 2 bits are not. -/
theorem test_table_word_three_bits :
    decodeTableWord 3 0b111 = some .rsv7 ∧ decodeTableWord 3 0b100 = some (.dec7 0) ∧ decodeTableWord 2 0 = none := by
  decide

theorem test_table_word_too_wide : decodeTableWord 8 8 = none := by decide

/-- A table word placed at the fetch runs as the first operation after reset (R60: `enc4 0x0` gives 0x00). -/
theorem test_fetch_word_enc4 :
    lastResult (step (State.reset.withFetchWord 8 0)) = some { status := .ok, cw := some 0x00 } := by decide

theorem test_fetch_word_rsv7 : nextFault (step (State.reset.withFetchWord 8 7)) = some .illegalOp := by decide

/-! ### The operations -/

/-- spec/95_test_vectors.md §2.1. -/
theorem test_enc4_table : ((List.range 16).map fun n => encodeNibble (BitVec.ofNat 4 n)) =
    [0x00, 0x69, 0x2A, 0x43, 0x4C, 0x25, 0x66, 0x0F, 0x70, 0x19, 0x5A, 0x33, 0x3C, 0x55, 0x16, 0x7F] := by decide

/-- R60, example. -/
theorem test_enc4_example :
    lastResult (step (start [ports 0b000])) = some { status := .ok, cw := some 0x33 } := by decide

/-- R61, example. -/
theorem test_enc8_example :
    lastResult (exec (.enc8 0xA5) (start [])) = some { status := .ok, cwHi := some 0x5A, cwLo := some 0x25 } := by
  decide

/-- §2.5: the pair is not symmetric. -/
theorem test_enc8_order : (resultEnc8 0x01).cwHi = some 0x00 ∧ (resultEnc8 0x01).cwLo = some 0x69 := by decide

/-- R64, example. -/
theorem test_syn_example : lastResult (exec (.syn 0x3B) (start [])) = some { status := .ok, s := some 4 } := by decide

/-- §2.3, extra vectors: bit 7 alone. -/
theorem test_syn_bit7 : syndrome 0x80 = 0 ∧ syndrome 0x40 = 1 ∧ syndrome 0x01 = 7 := by decide

/-- R65, example. -/
theorem test_dec7_example :
    lastResult (step (start [ports 0b100])) =
      some { status := .ok, nOut := some 0xB, corrected := some 1, s := some 5 } := by decide

/-- §2.3, rows 0x00, 0x50 and 0x78 of the grid. -/
theorem test_dec7_grid :
    ([0x00, 0x01, 0x02, 0x03, 0x04, 0x05, 0x06, 0x07, 0x50, 0x51, 0x52, 0x53, 0x54, 0x55, 0x56, 0x57,
      0x78, 0x79, 0x7A, 0x7B, 0x7C, 0x7D, 0x7E, 0x7F].map fun c => (decodeNibble c, syndrome c)) =
    [(0x0, 0), (0x0, 7), (0x0, 6), (0x3, 1), (0x0, 5), (0x5, 2), (0xE, 3), (0x7, 4),
     (0x8, 2), (0xD, 5), (0xA, 4), (0x3, 3), (0xD, 7), (0xD, 0), (0xE, 1), (0xD, 6),
     (0x8, 4), (0x1, 3), (0xA, 2), (0xF, 5), (0xC, 1), (0xF, 6), (0xF, 7), (0xF, 0)] := by decide

/-- R67, example. -/
theorem test_dec16_example :
    lastResult (step (start [ports 0b101])) =
      some { status := .ok, bOut := some 0xA5, correctedHi := some 1, correctedLo := some 1 } := by decide

/-- §2.6, last row: a double error in `c_hi`. -/
theorem test_dec16_double_error :
    resultDec16 0x03 0x00 =
      { status := .ok, bOut := some 0x30, correctedHi := some 1, correctedLo := some 0 } := by decide

/-- R69, example. -/
theorem test_encbuf_example :
    lastResult (exec (.encbuf [0x12, 0x34]) (start [])) =
      some { status := .ok, outBuf := some [0x69, 0x2A, 0x43, 0x4C] } := by decide

/-- §2.8, first row: the empty buffer. -/
theorem test_encbuf_empty :
    lastResult (exec (.encbuf []) (start [])) = some { status := .ok, outBuf := some [] } := by decide

/-- R70, example. -/
theorem test_decbuf_example :
    lastResult (step (start [ports 0b110])) = some { status := .ok, outBuf := some [0x12, 0x34] } := by decide

/-- §2.9: an odd length. -/
theorem test_decbuf_odd :
    lastResult (exec (.decbuf [0x69, 0x2A, 0x43]) (start [])) = some { status := .raised .lengthMismatch } ∧
    nextFault (exec (.decbuf [0x69, 0x2A, 0x43]) (start [])) = some .lengthMismatch := by decide

/-- §2.7. -/
theorem test_rsv7 :
    lastResult (exec .rsv7 (start [])) = some { status := .raised .illegalOp } := by decide

/-- R74: the values of the status output. -/
theorem test_status_codes :
    Status.ok.code = 0b00 ∧ (Status.raised .lengthMismatch).code = 0b01 ∧ (Status.raised .illegalOp).code = 0b10 := by
  decide

/-- R26, spec/93_implementation_defined.md I9: `n_out` holds no value after ENC4. -/
theorem test_undriven_port : value? ((resultEnc4 0xB).read .nOut) = none := by decide

theorem test_driven_port : value? ((resultEnc4 0xB).read .cw) = some (.byte 0x33) := by decide

/-- §2.5: the two codewords of ENC8 stand on their own ports. -/
theorem test_pair_ports :
    value? ((resultEnc8 0x01).read .cwHi) = some (.byte 0x00) ∧ value? ((resultEnc8 0x01).read .cwLo) = some (.byte 0x69) := by
  decide

/-! ### The assembler syntax (R57) -/

theorem test_assemble_hex : value? (assembleLine "enc4 0xB ; comment".toList) = some (some (.enc4 0xB)) := by decide

theorem test_assemble_binary : value? (assembleLine "syn 0b101".toList) = some (some (.syn 5)) := by decide

theorem test_assemble_pair : value? (assembleLine "dec16 0x1A, 33".toList) = some (some (.dec16 0x1A 0x21)) := by
  decide

theorem test_assemble_list : value? (assembleLine "decbuf [0x69, 0x2A]".toList) = some (some (.decbuf [0x69, 0x2A])) := by
  decide

theorem test_assemble_empty_list : value? (assembleLine "encbuf []".toList) = some (some (.encbuf [])) := by decide

theorem test_assemble_comment_only : value? (assembleLine "; nothing".toList) = some none := by decide

theorem test_assemble_too_wide : assembleLine "enc4 16".toList = .error (.operandTooWide 4 16) := by rfl

/-- R57: an operand that does not fit at the second place of a list. -/
theorem test_assemble_too_wide_in_list :
    assembleLine "encbuf [1, 300]".toList = .error (.operandTooWide 8 300) := by rfl

theorem test_assemble_unknown : assembleLine "nop".toList = .error (.unknownMnemonic ['n', 'o', 'p']) := by rfl

/-! ### Witnesses: the hypotheses of each statement can be met -/

/-- Before and after an ENC4, with a DEC7 and then the reserved selector to come. -/
def demoRun : List Presented := [ports 0b000, ports 0b100, ports 0b111]

theorem witness_StepRunsThePresentedOperation :
    (start demoRun).fault = none ∧ (start demoRun).run[(start demoRun).opIndex]? = some (ports 0b000) := by decide

theorem witness_StepLogsTheResultOfTheRule : ∃ s', step (start demoRun) = .next s' := ⟨_, rfl⟩

theorem witness_ExhaustedRunEnds : State.reset.fault = none ∧ State.reset.run.length ≤ State.reset.opIndex := by decide

theorem witness_FirstErrorStopsTheRun :
    (∃ s', exec .rsv7 (start []) = .next s') ∧ (∃ s', exec (.enc4 1) (start []) = .next s') ∧
    ((start []).record resultRsv7).fault = some .illegalOp := ⟨⟨_, rfl⟩, ⟨_, rfl⟩, rfl⟩

theorem witness_OperationsChangeOnlyBookkeeping :
    ∃ s', exec (.dec7 0x37) ((start demoRun).record (resultEnc4 0xB)) = .next s' ∧
      ∃ r, s'.log.getLast? = some r ∧ r.status = .ok := ⟨_, rfl, _, rfl, rfl⟩

theorem witness_StepKeepsTheRunInvariant :
    Claim.RunInv (start demoRun) ∧ ∃ s', step (start demoRun) = .next s' :=
  ⟨⟨by decide, by decide, fun _ _ _ _ h => (by cases h), fun _ _ h => (by cases h), fun _ _ _ h => (by cases h), rfl⟩,
   _, rfl⟩

theorem witness_RunIsTheFoldOfTheRules :
    (∀ p ∈ demoRun, (decode p).wf { maxBufLen := some 4 } = true) ∧
    performAll (demoRun.map decode) = .ok [resultEnc4 0xB, resultDec7 0x37, raise .illegalOp] :=
  ⟨by decide, rfl⟩

/-- A run whose Results are all OK, so that the machine ends with `runEnded`. -/
theorem witness_RunIsTheFoldOfTheRules_all_ok :
    (∀ p ∈ [ports 0b000, ports 0b110], (decode p).wf { maxBufLen := some 4 } = true) ∧
    performAll ([ports 0b000, ports 0b110].map decode) = .ok [resultEnc4 0xB, bufferResult [0x12, 0x34]] ∧
    Claim.upToError [resultEnc4 0xB, bufferResult [0x12, 0x34]] = [resultEnc4 0xB, bufferResult [0x12, 0x34]] ∧
    ([resultEnc4 0xB, bufferResult [0x12, 0x34]].getLast?.bind fun r => r.status.error?) = none :=
  ⟨by decide, rfl, rfl, rfl⟩

/-- The second presentation differs on every port that DEC7 does not read, and comes later in its run. -/
theorem witness_ResultDependsOnOperandsAlone :
    ∃ s' t', (start [ports 0b100]).run[0]? = some (ports 0b100) ∧
      Claim.SameOperation (ports 0b100) { Presented.idle 0b100 with c := 0x37 } ∧
      step (start [ports 0b100]) = .next s' ∧
      step ((start [ports 0b000, { Presented.idle 0b100 with c := 0x37 }]).record (resultEnc4 0xB)) = .next t' :=
  ⟨_, _, rfl, by simp [Claim.SameOperation, ports, Presented.idle], rfl, rfl⟩

theorem witness_EveryPresentedOperationCompletes :
    (start [ports 0b110]).fault = none ∧ (start [ports 0b110]).run[(start [ports 0b110]).opIndex]? = some (ports 0b110) ∧
    (decode (ports 0b110)).wf (start [ports 0b110]).config = true := by decide

theorem witness_NoStepLeavesItsBuffers :
    step ((start demoRun).record resultRsv7) = .fault (.runFaulted .illegalOp) := rfl

/-- One presentation for each clause: the reserved selector, DECBUF of the odd length 1, and of length 0. -/
theorem witness_SelectorIsCheckedBeforeLength :
    (decode { ports 0b111 with inBuf := [1] }).wf (start []).config = true ∧
    (decode { ports 0b110 with inBuf := [1] }).wf (start []).config = true ∧
    (decode { ports 0b110 with inBuf := [] }).wf (start []).config = true := by decide

/-- One presentation for each of the eight clauses. -/
theorem witness_EverySelectorNamesItsRow :
    [0, 1, 2, 3, 4, 5, 6, 7].map (fun op => (ports op).op) = [0b000, 0b001, 0b010, 0b011, 0b100, 0b101, 0b110, 0b111] := by
  decide

/-- A state without a fault, the hypothesis of the statements about ENC4, ENC8, SYN, DEC7, DEC16, the reserved
selector and the decoder laws; it need not be the reset state. -/
theorem witness_no_fault : ((start demoRun).record (resultEnc4 0xB)).fault = none := by decide

/-- At the bound: four bytes, and the last index. -/
theorem witness_EncbufEncodesEveryByte :
    (start []).fault = none ∧ (start []).config.admits ([1, 2, 3, 4] : Buffer).length = true ∧
    ([1, 2, 3, 4] : Buffer)[3]? = some 4 := by decide

/-- Even and odd lengths at both ends of the range: 0, 4, 1 and 3 bytes. -/
theorem witness_DecbufDecodesEveryPairOrRaises :
    (start []).fault = none ∧ (start []).config.admits 0 = true ∧ (start []).config.admits 1 = true ∧
    (start []).config.admits 3 = true ∧ (start []).config.admits 4 = true ∧
    ([1, 2, 3, 4] : Buffer)[2 * 1]? = some 3 ∧ ([1, 2, 3, 4] : Buffer)[2 * 1 + 1]? = some 4 := by decide

theorem witness_ReservedSelectorIsIllegal : (ports 0b111).op = 0b111 ∧ (start demoRun).fault = none := by decide

/-- One byte above the bound. -/
theorem witness_OverlongBufferIsRefused :
    (start []).fault = none ∧ (start []).config.maxBufLen = some 4 ∧ 4 < ([1, 2, 3, 4, 5] : Buffer).length := by decide

/-- A Result for each status. -/
theorem witness_StatusCodesAndTheirCauses :
    perform (.enc4 1) = .ok (resultEnc4 1) ∧ perform (.decbuf [1]) = .ok (raise .lengthMismatch) ∧
    perform .rsv7 = .ok (raise .illegalOp) := ⟨rfl, rfl, rfl⟩

theorem witness_LengthMismatchExactlyOnOddDecbuf :
    ∃ s', exec (.decbuf [1]) (start []) = .next s' ∧ s'.fault = some .lengthMismatch := ⟨_, rfl, rfl⟩

/-- A driven and an undriven port of one Result. -/
theorem witness_UndrivenPortsHoldNoValue :
    perform (.syn 1) = .ok (resultSyn 1) ∧ OutPort.s ∈ Claim.drives (.syn 1) ∧ OutPort.cw ∉ Claim.drives (.syn 1) :=
  ⟨rfl, by decide, by decide⟩

/-- A state that has performed an operation, and one that has not. -/
theorem witness_OutputPortsShowTheLatestResult :
    (∃ s', exec (.enc8 0x01) ((start demoRun).record (resultEnc4 0xB)) = .next s') ∧ (start demoRun).log = [] :=
  ⟨⟨_, rfl⟩, rfl⟩

theorem witness_TableWordsDecodeToTheirRows : 3 ≤ 3 := by decide

theorem witness_FlagsComeFromDec7AndDec16 :
    perform (.dec7 1) = .ok (resultDec7 1) ∧ perform (.dec16 1 0) = .ok (resultDec16 1 0) := ⟨rfl, rfl⟩

/-- A list with an operation after a failing one. -/
theorem witness_BlockGoesOnAfterAnError :
    performAll [.rsv7, .enc4 1] = .ok [raise .illegalOp, resultEnc4 1] := rfl

/-- Both clauses: a codeword with syndrome 0 and one with the largest, 7. -/
theorem witness_SyndromeNamesTheFlippedBit : syndrome 0x33 = 0 ∧ syndrome 0x32 = 7 := by decide

/-- Both ends of the range of a flipped bit. -/
theorem witness_DecoderLaws :
    syndrome (encodeNibble 0xB ^^^ (1#8 <<< 0)) = 7 ∧ syndrome (encodeNibble 0xB ^^^ (1#8 <<< 6)) = 1 := by decide

/-- Error patterns of weight 0, 1, 2 and 7 on the coded bits. -/
theorem witness_TwoOrMoreErrorsDecodeWrongSilently :
    [0x00, 0x40, 0x03, 0x7F].map (fun e => (Claim.weight e, e.getLsbD 7)) =
      [(0, false), (1, false), (2, false), (7, false)] := by decide

theorem witness_ParityBitsCheckTheirPositions :
    1 ≤ 1 ∧ 3 ≤ 3 ∧ CodedBit.p1.position.testBit 0 = true ∧ CodedBit.d4.position.testBit 2 = true := by decide

/-- A read and a write at each side of the end of a buffer of two bytes. -/
theorem witness_BufferAccessIsByByte :
    memRead [1, 2] 1 = .ok 2 ∧ memRead [1, 2] 2 = .error (.readOutOfRange 2) ∧
    memWrite [1, 2] 1 9 = .ok [1, 9] ∧ memWrite [1, 2] 2 9 = .ok [1, 2, 9] ∧
    memWrite [1, 2] 3 9 = .error (.writeOutOfOrder 3) := ⟨rfl, rfl, rfl, rfl, rfl⟩

theorem witness_BufferLengthLaws :
    perform (.encbuf [0x12]) = .ok (bufferResult [0x69, 0x2A]) ∧
    perform (.decbuf [0x69, 0x2A]) = .ok (bufferResult [0x12]) ∧ ([0x69, 0x28] : Buffer).length = 2 :=
  ⟨rfl, rfl, rfl⟩

/-- §2.9: bit 7 of the first codeword and bit 1 of the second flipped. -/
theorem witness_RoundTripUnderCorrectableNoise :
    ∃ s' r, exec (.encbuf [0x12]) (start []) = .next s' ∧ s'.log.getLast? = some r ∧
      r.outBuf = some [0x69, 0x2A] ∧ Claim.weight (0x69 ^^^ 0xE9) ≤ 1 ∧ Claim.weight (0x2A ^^^ 0x28) ≤ 1 ∧
      (start []).config.admits ([0xE9, 0x28] : Buffer).length = true :=
  ⟨_, _, rfl, rfl, rfl, by decide, by decide, by decide⟩

theorem witness_DecbufIgnoresBitSeven :
    ([0xE9, 0xAA] : Buffer).map (· &&& 0x7F#8) = ([0x69, 0x2A] : Buffer).map (· &&& 0x7F#8) := by decide

theorem witness_BufferOperationsAreAtomic :
    (∃ s', exec (.encbuf [0x12]) (start []) = .next s') ∧ (∃ s', exec (.decbuf [0x69, 0x2A]) (start []) = .next s') ∧
    (∃ s', exec (.decbuf [0x69]) (start []) = .next s') := ⟨⟨_, rfl⟩, ⟨_, rfl⟩, ⟨_, rfl⟩⟩

/-- The smallest integers that do not fit 4 and 8 bits, the largest that fits 8 as the other operand and as the
item before it in a list, and a comment as the tail. -/
theorem witness_AssemblerRejectsTooWideOperands :
    parseInteger ['1', '6'] = some 16 ∧ parseInteger ['0', 'x', '1', '0', '0'] = some 256 ∧
    parseInteger ['2', '5', '5'] = some 255 ∧
    (∀ w ∈ [['2', '5', '5']], ∃ u, parseInteger w = some u ∧ u < 256) ∧ IsLineEnd [';', ' ', 'x'] :=
  ⟨by decide, by decide, by decide, fun w h => ⟨255, by simp at h; subst h; decide, by decide⟩, .inr ⟨_, rfl⟩⟩

end Sys2Proof.Tests
end

section
/-! SUPPORT. The refusal of a buffer above `MAX_BUF_LEN` (spec/00_scope.md R6;
spec/93_implementation_defined.md I11). -/

namespace Sys2Proof.Machine

/-- The parameter rejects exactly the lengths above a bound it sets; an unbounded one rejects none (R6). -/
theorem admits_eq_false_iff (c : Config) (len : Nat) :
    c.admits len = false ↔ ∃ m, c.maxBufLen = some m ∧ m < len := by
  unfold Config.admits
  cases c.maxBufLen <;> simp

/-- Settles O25: the bound rejects the length, and both buffer operations conclude by `concludeBuffer`,
which refuses a rejected buffer whatever the Result of the rule would be. -/
theorem overlongBufferIsRefused : Obligations.OverlongBufferIsRefused := by
  intro inBuf s m hfault hbound hlong
  have hadmits : s.config.admits inBuf.length = false := (admits_eq_false_iff _ _).2 ⟨m, hbound, hlong⟩
  constructor
  · exact concludeBuffer_of_overlong inBuf (resultEncbuf inBuf) s hfault hadmits
  · exact concludeBuffer_of_overlong inBuf (resultDecbuf inBuf) s hfault hadmits

end Sys2Proof.Machine
end

section
/-! SUPPORT. What a step leaves in the state: the laws of `exec` and `step` beside those of Laws/Exec.lean
(spec/10_state.md R25, R84), and the statements about reset and about one step. -/

namespace Sys2Proof.Machine

/-! ### The state with a Result recorded -/

/-- Recording in a state without a fault makes exactly the non-OK status of the Result the fault (R25). -/
theorem State.record_of_no_fault (s : State) (r : Result) (hfault : s.fault = none) :
    s.record r =
      { s with log := s.log ++ [r], opIndex := s.opIndex + 1, fault := r.status.error? } := by
  cases hst : r.status with
  | ok => simp [State.record_of_ok s r hst, hfault]
  | raised e => simp [State.record_of_raised s r e hst]

theorem State.record_fault_of_no_fault (s : State) (r : Result) (hfault : s.fault = none) :
    (s.record r).fault = r.status.error? := by
  rw [State.record_of_no_fault s r hfault]

theorem State.getLast?_record_log (s : State) (r : Result) : (s.record r).log.getLast? = some r := by
  simp

/-- The block's output ports after an operation are those of its Result (R17). -/
@[simp] theorem State.readOut_record (s : State) (r : Result) (p : OutPort) :
    (s.record r).readOut p = r.read p := by
  simp [State.readOut]

theorem State.readOut_of_log_nil (s : State) (p : OutPort) (hlog : s.log = []) :
    s.readOut p = .error (.undrivenPort p) := by
  simp [State.readOut, hlog]

/-! ### One step -/

/-- `step` answers a next state exactly by recording the block-level Result of the operation presented at
`opIndex`, if it can be presented, in a state without a fault. -/
theorem step_next_iff_record (s s' : State) :
    step s = .next s' ↔
      ∃ p r, s.fault = none ∧ s.run[s.opIndex]? = some p ∧ (decode p).wf s.config = true ∧
        perform (decode p) = .ok r ∧ s' = s.record r := by
  rw [step_next_iff]
  constructor
  · rintro ⟨p, hp, hexec⟩
    obtain ⟨hfault, hwf, r, hr, rfl⟩ := (exec_next_iff _ _ _).1 hexec
    exact ⟨p, r, hfault, hp, hwf, hr, rfl⟩
  · rintro ⟨p, r, hfault, hp, hwf, hr, rfl⟩
    exact ⟨p, hp, (exec_next_iff _ _ _).2 ⟨hfault, hwf, r, hr, rfl⟩⟩

theorem step_of_fault (s : State) (e : ErrorStatus) (hfault : s.fault = some e) :
    step s = .fault (.runFaulted e) := by
  simp [step, hfault]

theorem step_of_presented (s : State) (p : Presented) (hfault : s.fault = none)
    (hp : s.run[s.opIndex]? = some p) : step s = exec (decode p) s := by
  simp [step, State.fetch, hfault, hp]

theorem step_of_exhausted (s : State) (hfault : s.fault = none) (hend : s.run.length ≤ s.opIndex) :
    step s = .refused .runEnded := by
  simp [step, State.fetch, hfault, List.getElem?_eq_none hend]

/-! ### The statements about one step -/

/-- Settles O1: the empty log drives no port, and the five fields are the whole state. -/
theorem resetHoldsOnlyEmptyBookkeeping : Obligations.ResetHoldsOnlyEmptyBookkeeping := by
  refine ⟨rfl, rfl, rfl, fun p => State.readOut_of_log_nil _ p rfl, ?_⟩
  rintro ⟨config, run, opIndex, log, fault⟩ rfl rfl rfl rfl rfl
  rfl

/-- Settles O2: the law `step_of_presented`. -/
theorem stepRunsThePresentedOperation : Obligations.StepRunsThePresentedOperation :=
  step_of_presented

/-- Settles O4: the law `step_of_exhausted`. -/
theorem exhaustedRunEnds : Obligations.ExhaustedRunEnds :=
  step_of_exhausted

/-- Settles O3: a step records one Result, and in a state without a fault recording is the update that the
statement writes out. -/
theorem stepLogsTheResultOfTheRule : Obligations.StepLogsTheResultOfTheRule := by
  intro s s'
  rw [step_next_iff_record]
  refine exists_congr fun p => exists_congr fun r => and_congr_right fun hfault => ?_
  rw [State.record_of_no_fault s r hfault]
  cases r.status <;> rfl

/-- Settles O5: an operation that completes did so in a state without a fault, where recording sets the fault
to the Result's own status; in a faulted state neither `step` nor `exec` completes. -/
theorem firstErrorStopsTheRun : Obligations.FirstErrorStopsTheRun := by
  constructor
  · intro i s s' hexec
    obtain ⟨hfault, -, r, -, rfl⟩ := (exec_next_iff i s s').1 hexec
    refine ⟨hfault, r, rfl, ?_, ?_⟩ <;> rw [State.record_fault_of_no_fault s r hfault]
    · intro hok
      simp [hok]
    · intro e hraised
      simp [hraised]
  · intro s e hfault
    exact ⟨step_of_fault s e hfault, fun i => exec_of_fault i s e hfault⟩

/-- Settles O6: an operation that completes only records its Result. -/
theorem operationsChangeOnlyBookkeeping : Obligations.OperationsChangeOnlyBookkeeping := by
  intro i s s' hexec
  obtain ⟨hfault, -, r, -, rfl⟩ := (exec_next_iff i s s').1 hexec
  refine ⟨rfl, rfl, rfl, by simp, fun k hk => List.getElem?_append_left hk, ?_⟩
  rintro ⟨x, hx, hok⟩
  obtain rfl : r = x := Option.some.inj ((State.getLast?_record_log s r).symm.trans hx)
  rw [State.record_fault_of_no_fault s r hfault, hok, hfault]
  rfl

/-- Settles O48: the latest Result in the log is that of the operation just completed. -/
theorem outputPortsShowTheLatestResult : Obligations.OutputPortsShowTheLatestResult := by
  constructor
  · intro i s s' hexec
    obtain ⟨-, -, r, hr, rfl⟩ := (exec_next_iff i s s').1 hexec
    exact ⟨r, hr, State.readOut_record s r⟩
  · exact State.readOut_of_log_nil

/-! ### Presentations of the same operation -/

/-- Presentations that agree on the selector and on the ports it reads decode alike (R54, R56). -/
theorem decode_eq_of_sameOperation (p q : Presented) (h : Claim.SameOperation p q) : decode p = decode q := by
  obtain ⟨op, n, b, c, cHi, cLo, inBuf⟩ := p
  obtain ⟨op', n', b', c', cHi', cLo', inBuf'⟩ := q
  obtain ⟨rfl, hn, hb, hbuf, hc, hpair⟩ := h
  rcases Laws.SelectorUnique.selector_cases op with rfl | rfl | rfl | rfl | rfl | rfl | rfl | rfl
  · exact congrArg Instr.enc4 (hn rfl)
  · exact congrArg Instr.enc8 (hb rfl)
  · exact congrArg Instr.encbuf (hbuf (.inl rfl))
  · exact congrArg Instr.syn (hc (.inl rfl))
  · exact congrArg Instr.dec7 (hc (.inr rfl))
  · obtain ⟨hhi, hlo⟩ := hpair rfl
    exact congrArg₂ Instr.dec16 hhi hlo
  · exact congrArg Instr.decbuf (hbuf (.inr rfl))
  · rfl

/-- Settles O10: the two presentations decode to one operation, whose rule gives one Result, and both the last
log entry and the fault after a step are functions of that Result. -/
theorem resultDependsOnOperandsAlone : Obligations.ResultDependsOnOperandsAlone := by
  intro s t s' t' p q hp hq hsame hs ht
  obtain ⟨p', r, hsf, hp', -, hr, rfl⟩ := (step_next_iff_record s s').1 hs
  obtain ⟨q', r', htf, hq', -, hr', rfl⟩ := (step_next_iff_record t t').1 ht
  obtain rfl : p = p' := Option.some.inj (hp.symm.trans hp')
  obtain rfl : q = q' := Option.some.inj (hq.symm.trans hq')
  have hresult : r = r' := by
    rw [decode_eq_of_sameOperation p q hsame, hr'] at hr
    exact (Except.ok.inj hr).symm
  rw [State.getLast?_record_log, State.getLast?_record_log, State.record_fault_of_no_fault s r hsf,
    State.record_fault_of_no_fault t r' htf, hresult]
  exact ⟨rfl, rfl⟩

end Sys2Proof.Machine
end

section
/-! SUPPORT. The run invariant and the run as a fold (spec/10_state.md R19, R24, R25, R28). -/

namespace Sys2Proof.Claim

open Sys2Proof.Machine

/-! ### The run invariant -/

/-- Before the first operation there is nothing to say of any log entry. -/
theorem RunInv.of_not_started (s : State) (hindex : s.opIndex = 0) (hlog : s.log = []) (hfault : s.fault = none) :
    RunInv s where
  index_le := by omega
  log_length := by simp [hlog, hindex]
  log_rule := by simp [hlog]
  performed_wf := by simp [hindex]
  earlier_ok := by simp [hindex]
  fault_last := by simp [hlog, hfault]

/-- In a run without a fault the last Result is OK too, and so every Result is. -/
theorem RunInv.status_ok {s : State} (hinv : RunInv s) (hfault : s.fault = none) (k : Nat) (r : Result)
    (hk : s.log[k]? = some r) : r.status = .ok := by
  obtain ⟨hlt, -⟩ := List.getElem?_eq_some_iff.1 hk
  have hlen := hinv.log_length
  by_cases hlast : k + 1 = s.opIndex
  · have hr : s.log.getLast? = some r := by
      rw [List.getLast?_eq_getElem?, ← hk]
      congr 1
      omega
    have herr := hinv.fault_last
    rw [hfault, hr] at herr
    exact (Status.error?_eq_none _).1 herr.symm
  · exact hinv.earlier_ok k r (by omega) hk

/-- Recording the Result of the presented operation keeps the invariant: the entries before it stand, and the
new one is the last. -/
theorem RunInv.record {s : State} (hinv : RunInv s) (p : Presented) (r : Result) (hfault : s.fault = none)
    (hp : s.run[s.opIndex]? = some p) (hwf : (decode p).wf s.config = true)
    (hr : perform (decode p) = .ok r) : RunInv (s.record r) := by
  have hlen := hinv.log_length
  obtain ⟨hlt, -⟩ := List.getElem?_eq_some_iff.1 hp
  refine
    { index_le := hlt
      log_length := by simp [hlen]
      log_rule := ?log_rule
      performed_wf := ?performed_wf
      earlier_ok := ?earlier_ok
      fault_last := by rw [State.record_fault_of_no_fault s r hfault, State.getLast?_record_log]; rfl }
  case log_rule =>
    intro k q x hq hx
    rcases Nat.lt_trichotomy k s.log.length with hk | rfl | hk
    · exact hinv.log_rule k q x hq (by rwa [State.record_log, List.getElem?_append_left hk] at hx)
    · obtain rfl : r = x := by simpa using hx
      obtain rfl : p = q := by simpa [hlen, hp] using hq
      exact hr
    · rw [State.record_log, List.getElem?_eq_none (by simp; omega)] at hx
      cases hx
  case performed_wf =>
    intro k q hk hq
    rcases Nat.lt_succ_iff_lt_or_eq.1 hk with hk | rfl
    · exact hinv.performed_wf k q hk hq
    · obtain rfl : p = q := by simpa [hp] using hq
      exact hwf
  case earlier_ok =>
    intro k x hk hx
    have hk' : k < s.log.length := by simp at hk; omega
    exact hinv.status_ok hfault k x (by rwa [State.record_log, List.getElem?_append_left hk'] at hx)

/-- Settles O7: a step records the Result of the presented operation in a state without a fault. -/
theorem stepKeepsTheRunInvariant : Obligations.StepKeepsTheRunInvariant := by
  intro s s' hinv hstep
  obtain ⟨p, r, hfault, hp, hwf, hr, rfl⟩ := (step_next_iff_record s s').1 hstep
  exact hinv.record p r hfault hp hwf hr

/-- Settles O8: neither state has performed an operation. -/
theorem runInvariantHoldsAtTheStart : Obligations.RunInvariantHoldsAtTheStart :=
  ⟨.of_not_started _ rfl rfl rfl, fun _ _ => .of_not_started _ rfl rfl rfl⟩

/-! ### The Results up to the first non-OK one -/

theorem upToError_cons_ok (r : Result) (rs : List Result) (h : r.status = .ok) :
    upToError (r :: rs) = r :: upToError rs := by
  simp [upToError, h]

theorem upToError_cons_raised (r : Result) (rs : List Result) (e : ErrorStatus) (h : r.status = .raised e) :
    upToError (r :: rs) = [r] := by
  simp [upToError, h]

/-- The non-OK status of the last of a list of Results, if it has one: what R25 leaves in `fault` after a run
without an earlier error. -/
def lastError (rs : List Result) : Option ErrorStatus := rs.getLast?.bind fun r => r.status.error?

@[simp] theorem lastError_nil : lastError [] = none := rfl

@[simp] theorem lastError_singleton (r : Result) : lastError [r] = r.status.error? := rfl

theorem lastError_cons_of_ok (r : Result) (rs : List Result) (h : r.status = .ok) :
    lastError (r :: rs) = lastError rs := by
  cases rs with
  | nil => simp [h]
  | cons x xs => simp [lastError]

/-- Without a non-OK Result at its end, what is kept is the whole list. -/
theorem upToError_eq_self (rs : List Result) (h : lastError (upToError rs) = none) : upToError rs = rs := by
  induction rs with
  | nil => rfl
  | cons r rs ih =>
    cases hst : r.status with
    | ok =>
      rw [upToError_cons_ok r rs hst] at h ⊢
      rw [ih (by rwa [lastError_cons_of_ok _ _ hst] at h)]
    | raised e =>
      rw [upToError_cons_raised r rs e hst] at h
      simp [hst] at h

end Sys2Proof.Claim

namespace Sys2Proof.Machine

open Sys2Proof.Claim

/-! ### The run as a fold -/

theorem performAll_cons_ok_iff (i : Instr) (is : List Instr) (rs : List Result) :
    performAll (i :: is) = .ok rs ↔
      ∃ r rest, perform i = .ok r ∧ performAll is = .ok rest ∧ rs = r :: rest := by
  rw [performAll]
  cases perform i <;> cases performAll is <;> simp [Except.bind, Except.map, eq_comm]

theorem length_of_performAll (is : List Instr) (rs : List Result) (h : performAll is = .ok rs) :
    rs.length = is.length := by
  induction is generalizing rs with
  | nil => cases h; rfl
  | cons i is ih =>
    obtain ⟨r, rest, -, hrest, rfl⟩ := (performAll_cons_ok_iff i is rs).1 h
    simp [ih rest hrest]

/-- One more step after a run that reached `s'` is the step from `s'`. -/
theorem run_add_one_of_next (k : Nat) (s s' : State) (h : core.run k s = .next s') :
    core.run (k + 1) s = core.run 1 s' := by
  induction k generalizing s with
  | zero => cases h; rfl
  | succ k ih =>
    cases hstep : step s with
    | next t =>
      rw [run_succ_of_next _ _ _ hstep] at h ⊢
      exact ih t h
    | fault f =>
      rw [run_succ_of_fault _ _ _ hstep] at h
      cases h
    | refused f =>
      rw [run_succ_of_refused _ _ _ hstep] at h
      cases h

/-- From a state without a fault, the operations `ps` still to come are performed up to and with the first
non-OK Result. -/
theorem run_upToError (ps : List Presented) (s : State) (rs : List Result) (hfault : s.fault = none)
    (hps : s.run.drop s.opIndex = ps) (hwf : ∀ p ∈ ps, (decode p).wf s.config = true)
    (hrs : performAll (ps.map decode) = .ok rs) :
    core.run (upToError rs).length s =
      .next { s with opIndex := s.opIndex + (upToError rs).length, log := s.log ++ upToError rs,
                     fault := lastError (upToError rs) } := by
  induction ps generalizing s rs with
  | nil =>
    cases hrs
    obtain ⟨config, run, opIndex, log, fault⟩ := s
    cases hfault
    simp [upToError, Host.Core.run]
  | cons p ps ih =>
    obtain ⟨r, rest, hr, hrest, rfl⟩ := (performAll_cons_ok_iff _ _ rs).1 hrs
    have hp : s.run[s.opIndex]? = some p := by rw [← List.head?_drop, hps]; rfl
    have hstep : step s = .next (s.record r) :=
      (step_next_iff_record _ _).2 ⟨p, r, hfault, hp, hwf p (by simp), hr, rfl⟩
    cases hst : r.status with
    | ok =>
      have htail := ih (s.record r) rest (by simp [hst, hfault])
        (by rw [State.record_run, State.record_opIndex, ← List.tail_drop, hps]; rfl)
        (fun q hq => hwf q (by simp [hq])) hrest
      rw [upToError_cons_ok r rest hst, List.length_cons, run_succ_of_next _ _ _ hstep, htail,
        lastError_cons_of_ok _ _ hst, State.record_of_ok s r hst]
      simp [Nat.add_assoc, Nat.add_comm 1]
    | raised e =>
      rw [upToError_cons_raised r rest e hst, List.length_singleton, run_succ_of_next _ _ _ hstep,
        State.record_of_no_fault s r hfault]
      rfl

/-- Settles O9: the run from its start is `run_upToError`; after it the next step meets either the fault of the
last Result or, when every Result was OK, the end of the list. -/
theorem runIsTheFoldOfTheRules : Obligations.RunIsTheFoldOfTheRules := by
  intro c run rs hwf hrs
  have hrun := run_upToError run (State.ofRun c run) rs rfl rfl hwf hrs
  simp only [State.ofRun_opIndex, State.ofRun_log, Nat.zero_add, List.nil_append] at hrun
  refine ⟨hrun, ?_⟩
  rw [run_add_one_of_next _ _ _ hrun]
  cases herr : (upToError rs).getLast?.bind fun r => r.status.error? with
  | some e => exact run_succ_of_fault _ _ _ (step_of_fault _ e herr)
  | none =>
    have hlen : rs.length = run.length := by simpa using length_of_performAll _ _ hrs
    refine run_succ_of_refused _ _ _ (step_of_exhausted _ herr ?_)
    simp [upToError_eq_self rs herr, hlen]

end Sys2Proof.Machine
end

section
/-! SUPPORT. The block-level Result of every operation without a failure case, and its output ports
(spec/10_state.md R17, R21, R26). -/

namespace Sys2Proof.Machine

/-- The Result of each operation, with the buffer loops as list functions (Laws/Buffers.lean). -/
def ruleResult : Instr → Result
  | .enc4 n => resultEnc4 n
  | .enc8 b => resultEnc8 b
  | .encbuf inBuf => bufferResult (inBuf.flatMap codewordPair)
  | .syn c => resultSyn c
  | .dec7 c => resultDec7 c
  | .dec16 cHi cLo => resultDec16 cHi cLo
  | .decbuf inBuf => if inBuf.length % 2 = 0 then bufferResult (decodePairs inBuf) else raise .lengthMismatch
  | .rsv7 => raise .illegalOp

theorem perform_eq (i : Instr) : perform i = .ok (ruleResult i) := by
  cases i with
  | encbuf inBuf => exact resultEncbuf_eq inBuf
  | decbuf inBuf =>
    rw [ruleResult]
    split
    next heven => exact resultDecbuf_even inBuf heven
    next hodd => exact resultDecbuf_odd inBuf (by omega)
  | _ => rfl

theorem eq_ruleResult_of_perform (i : Instr) (r : Result) (h : perform i = .ok r) : r = ruleResult i :=
  Except.ok.inj (h.symm.trans (perform_eq i))

@[simp] theorem status_raise (e : ErrorStatus) : (raise e).status = .raised e := rfl

@[simp] theorem status_bufferResult (out : Buffer) : (bufferResult out).status = .ok := rfl

/-! ### Output ports -/

theorem readPort_ok_iff (p : OutPort) (x : Option PortValue) (v : PortValue) :
    readPort p x = .ok v ↔ x = some v := by
  cases x <;> simp [readPort]

/-- A port whose read gives no value faults by its own name (R26). -/
theorem Result.read_of_no_value (r : Result) (p : OutPort) (h : ¬ ∃ v, r.read p = .ok v) :
    r.read p = .error (.undrivenPort p) := by
  unfold Result.read readPort at h ⊢
  split
  next x hx => exact absurd ⟨x, by simp [hx]⟩ h
  next => rfl

/-- A data port reads as the value recorded for it, in the form its width has. -/
theorem readPort_map_ok_iff {α : Type} (p : OutPort) (x : Option α) (f : α → PortValue) (v : PortValue) :
    readPort p (x.map f) = .ok v ↔ ∃ a, x = some a ∧ v = f a := by
  rw [readPort_ok_iff, Option.map_eq_some_iff]
  simp only [eq_comm]

/-- A Result that raises a status holds a value on no other port (R77). -/
theorem read_raise_ok_iff (e : ErrorStatus) (p : OutPort) : (∃ v, (raise e).read p = .ok v) ↔ p = .status := by
  cases p <;> simp [Result.read, raise, readPort]

/-- A Result that hands back a buffer holds values on `status` and `OUT` (R17). -/
theorem read_bufferResult_ok_iff (out : Buffer) (p : OutPort) :
    (∃ v, (bufferResult out).read p = .ok v) ↔ p = .status ∨ p = .outBuf := by
  cases p <;> simp [Result.read, bufferResult, readPort]

/-- The ports that hold a value are `status` and, when it is OK, those of the operation's row of R17. -/
theorem read_ruleResult_ok_iff (i : Instr) (p : OutPort) :
    (∃ v, (ruleResult i).read p = .ok v) ↔
      p = .status ∨ ((ruleResult i).status = .ok ∧ p ∈ Claim.drives i) := by
  cases i with
  | enc4 n => cases p <;> simp [ruleResult, resultEnc4, Result.read, readPort, Claim.drives]
  | enc8 b => cases p <;> simp [ruleResult, resultEnc8, Result.read, readPort, Claim.drives]
  | encbuf inBuf => simp [ruleResult, read_bufferResult_ok_iff, Claim.drives]
  | syn c => cases p <;> simp [ruleResult, resultSyn, Result.read, readPort, Claim.drives]
  | dec7 c => cases p <;> simp [ruleResult, resultDec7, Result.read, readPort, Claim.drives]
  | dec16 cHi cLo => cases p <;> simp [ruleResult, resultDec16, Result.read, readPort, Claim.drives]
  | decbuf inBuf =>
    rw [ruleResult]
    split
    next => simp [read_bufferResult_ok_iff, Claim.drives]
    next => simp [read_raise_ok_iff]
  | rsv7 => simp [ruleResult, read_raise_ok_iff]

/-- Settles O29: the Result is `ruleResult`, whose driven ports `read_ruleResult_ok_iff` lists row by row. -/
theorem undrivenPortsHoldNoValue : Obligations.UndrivenPortsHoldNoValue := by
  constructor
  · intro i r p hr
    obtain rfl := eq_ruleResult_of_perform i r hr
    have hports := read_ruleResult_ok_iff i p
    exact ⟨hports, fun hundriven => Result.read_of_no_value _ p (mt hports.1 hundriven)⟩
  · intro r
    refine ⟨rfl, ?_, ?_, ?_, ?_, ?_, ?_, ?_, ?_, ?_, ?_⟩ <;> exact readPort_map_ok_iff _ _ _

/-! ### Flags -/

/-- R21 with the check bits of R48 written out. -/
theorem correctedFlag_eq_ite (c : Codeword) :
    correctedFlag c = if Claim.syndromeOf c = 0 then 0 else 1 := by
  rw [correctedFlag, syndrome_eq]

/-- Settles O30: of the rows of `ruleResult` only DEC7 and DEC16 record a flag, by `correctedFlag`. -/
theorem flagsComeFromDec7AndDec16 : Obligations.FlagsComeFromDec7AndDec16 := by
  intro i r hr
  obtain rfl := eq_ruleResult_of_perform i r hr
  cases i with
  | dec7 c => simp [ruleResult, resultDec7, correctedFlag_eq_ite]
  | dec16 cHi cLo => simp [ruleResult, resultDec16, correctedFlag_eq_ite]
  | decbuf inBuf => by_cases heven : inBuf.length % 2 = 0 <;> simp [ruleResult, heven, bufferResult, raise]
  | enc4 n => simp [ruleResult, resultEnc4]
  | enc8 b => simp [ruleResult, resultEnc8]
  | encbuf inBuf => simp [ruleResult, bufferResult]
  | syn c => simp [ruleResult, resultSyn]
  | rsv7 => simp [ruleResult, raise]

end Sys2Proof.Machine
end

section
/-! SUPPORT. Access to the buffers: one byte at a time, and never outside them (spec/20_memory.md R31, R32). -/

namespace Sys2Proof.Machine

/-! ### One byte -/

theorem memRead_ok_iff (inBuf : Buffer) (i : Nat) (b : Byte) :
    memRead inBuf i = .ok b ↔ inBuf[i]? = some b := by
  unfold memRead
  cases inBuf[i]? <;> simp

theorem memRead_of_length_le (inBuf : Buffer) (i : Nat) (h : inBuf.length ≤ i) :
    memRead inBuf i = .error (.readOutOfRange i) := by
  simp [memRead, List.getElem?_eq_none h]

/-- Settles O41: a read is a lookup by index; a write at the end is `memWrite_append`, one inside the buffer
is `List.set` by `memWrite_set`, one beyond the end is `memWrite_gap`. -/
theorem bufferAccessIsByByte : Obligations.BufferAccessIsByByte := by
  constructor
  · intro inBuf i
    exact ⟨memRead_ok_iff inBuf i, memRead_of_length_le inBuf i⟩
  · intro out v
    refine ⟨memWrite_append out v _ rfl, fun j hj => ?_, memWrite_gap out v⟩
    exact ⟨out.set j v, memWrite_set out v j hj, List.length_set, List.getElem?_set_self hj,
      fun k hk => List.getElem?_set_ne hk.symm⟩

/-! ### The faults of a step -/

/-- Concluding an operation whose rule gives a Result faults exactly by the fault already set (R25, R84). -/
theorem conclude_fault_iff {rule : Except Fault Result} {r : Result} (hrule : rule = .ok r) (s : State)
    (f : Fault) : conclude rule s = .fault f ↔ ∃ e, s.fault = some e ∧ f = .runFaulted e := by
  subst hrule
  cases hfault : s.fault with
  | none => simp [conclude_ok r s hfault]
  | some e => simp [conclude_of_fault _ s e hfault, eq_comm]

theorem concludeBuffer_fault_iff {rule : Except Fault Result} {r : Result} (hrule : rule = .ok r)
    (inBuf : Buffer) (s : State) (f : Fault) :
    concludeBuffer inBuf rule s = .fault f ↔ ∃ e, s.fault = some e ∧ f = .runFaulted e := by
  cases hadmits : s.config.admits inBuf.length with
  | true => rw [concludeBuffer_of_admits inBuf _ s hadmits, conclude_fault_iff hrule]
  | false =>
    cases hfault : s.fault with
    | none => simp [concludeBuffer_of_overlong inBuf _ s hfault hadmits]
    | some e => simp [concludeBuffer_of_fault inBuf _ s e hfault, eq_comm]

/-- No operation has a fault of its own: every rule gives a Result (`perform_eq`), so the loops of ENCBUF and
DECBUF stay inside `IN` and leave no gap in `OUT` (R31, R32). -/
theorem exec_fault_iff (i : Instr) (s : State) (f : Fault) :
    exec i s = .fault f ↔ ∃ e, s.fault = some e ∧ f = .runFaulted e := by
  cases i with
  | encbuf inBuf => exact concludeBuffer_fault_iff (perform_eq (.encbuf inBuf)) inBuf s f
  | decbuf inBuf => exact concludeBuffer_fault_iff (perform_eq (.decbuf inBuf)) inBuf s f
  | _ => rw [exec_eq_conclude _ s rfl, conclude_fault_iff (perform_eq _)]

/-- Settles O12: a faulted state answers its own fault, and in any other a step is the end of the run, which is
no fault, or `exec` of the presented operation, which has no fault of its own. -/
theorem noStepLeavesItsBuffers : Obligations.NoStepLeavesItsBuffers := by
  intro s f hstep
  cases hfault : s.fault with
  | some e =>
    rw [step_of_fault s e hfault] at hstep
    cases hstep
    exact ⟨e, rfl, rfl⟩
  | none =>
    cases hp : s.run[s.opIndex]? with
    | none =>
      rw [step_of_exhausted s hfault (List.getElem?_eq_none_iff.1 hp)] at hstep
      cases hstep
    | some p =>
      rw [step_of_presented s p hfault hp] at hstep
      rw [← hfault]
      exact (exec_fault_iff (decode p) s f).1 hstep

end Sys2Proof.Machine
end

section
/-! SUPPORT. Decoding a presentation and a word of the opcode table (spec/30_encoding.md R53 to R56, R59). -/

namespace Sys2Proof

/-- Settles O14: each selector value is one row of `decode`. -/
theorem everySelectorNamesItsRow : Obligations.EverySelectorNamesItsRow := by
  rintro ⟨op, n, b, c, cHi, cLo, inBuf⟩
  refine ⟨?_, ?_, ?_, ?_, ?_, ?_, ?_, ?_⟩ <;> rintro rfl <;> rfl

theorem decode_encode (i : Instr) : decode (encode i) = i := by
  cases i <;> rfl

/-- Presentations that decode alike agree on the selector, and on every operand of the row it names. -/
theorem sameOperation_of_decode_eq (p q : Presented) (h : decode p = decode q) : Claim.SameOperation p q := by
  have hop := Laws.SelectorUnique.selector_of_decode p q h
  obtain ⟨op, n, b, c, cHi, cLo, inBuf⟩ := p
  obtain ⟨op', n', b', c', cHi', cLo', inBuf'⟩ := q
  obtain rfl : op = op' := hop
  rcases Laws.SelectorUnique.selector_cases op with rfl | rfl | rfl | rfl | rfl | rfl | rfl | rfl <;>
    cases h <;> simp [Claim.SameOperation]

/-- Settles O15: the encoder puts each operand on the port its row reads, and `SameOperation` compares
exactly the ports of the row. -/
theorem decodeInvertsEncode : Obligations.DecodeInvertsEncode :=
  ⟨decode_encode, fun p q => ⟨sameOperation_of_decode_eq p q, Machine.decode_eq_of_sameOperation p q⟩⟩

/-! ### Words of the opcode table -/

theorem decodeTableWord_of_lt (nbits w : Nat) (hbits : 3 ≤ nbits) (hw : w < 8) :
    decodeTableWord nbits w = some (decode (.idle (BitVec.ofNat 3 w))) := by
  simp [decodeTableWord, selectorOfWord, Nat.not_lt.mpr hbits, hw]

theorem decodeTableWord_eq_none_iff (nbits w : Nat) : decodeTableWord nbits w = none ↔ nbits < 3 ∨ 8 ≤ w := by
  by_cases hshort : nbits < 3
  · simp [decodeTableWord, selectorOfWord, hshort]
  · by_cases hw : w < 8
    · rw [decodeTableWord_of_lt nbits w (by omega) hw]
      simp [hshort, hw]
    · simp [decodeTableWord, selectorOfWord, hshort, hw, Nat.not_lt.mp hw]

/-- Settles O16: a word below 8 is the selector with that number, presented idle. -/
theorem tableWordsDecodeToTheirRows : Obligations.TableWordsDecodeToTheirRows := by
  refine ⟨fun nbits hbits => ?_, decodeTableWord_eq_none_iff⟩
  refine ⟨?_, ?_, ?_, ?_, ?_, ?_, ?_, ?_⟩ <;> exact decodeTableWord_of_lt nbits _ hbits (by decide)

end Sys2Proof
end

section
/-! SUPPORT. Bytes as nibbles, the layout bit by bit, and the code as a linear one: the syndrome, the data bits
and the encoder commute with `^^^` (spec/30_encoding.md R45 to R51). -/

namespace Sys2Proof.Machine

/-! ### A byte as two nibbles -/

theorem getLsbD_highNibble (b : Byte) (i : Nat) (hi : i < 4) : (highNibble b).getLsbD i = b.getLsbD (4 + i) := by
  simp [highNibble, hi]

theorem getLsbD_lowNibble (b : Byte) (i : Nat) (hi : i < 4) : (lowNibble b).getLsbD i = b.getLsbD i := by
  simp [lowNibble, hi]

/-- Settles O40: extracting the two halves of a concatenation, and concatenating the two halves. -/
theorem byteIsItsTwoNibbles : Obligations.ByteIsItsTwoNibbles :=
  ⟨fun b => ⟨BitVec.extractLsb'_append_extractLsb',
    fun i hi => ⟨getLsbD_highNibble b i hi, getLsbD_lowNibble b i hi⟩⟩,
   fun _ _ => ⟨BitVec.extractLsb'_append_eq_left, BitVec.extractLsb'_append_eq_right⟩⟩

/-! ### The layout, bit by bit -/

theorem CodedBit.position_bounds (k : CodedBit) : 1 ≤ k.position ∧ k.position ≤ 7 := by
  cases k <;> decide

/-- The mask of position `k` has container bit `7 − k` and no other (R46). -/
theorem getLsbD_positionMask (k i : Nat) (hi : i < 8) : (positionMask k).getLsbD i = (i == 7 - k) := by
  rw [positionMask, containerBit, ← BitVec.twoPow_eq, BitVec.getLsbD_twoPow]
  grind

theorem getLsbD_place (k : CodedBit) (v : Bool) (i : Nat) (hi : i < 8) :
    (place k v).getLsbD i = (v && i == 7 - k.position) := by
  cases v <;> simp [place, getLsbD_positionMask _ i hi]

/-- The container that `pack` gives, bit by bit (R45). -/
theorem getLsbD_pack (w : CodedBits) :
    (pack w).getLsbD 7 = false ∧ (pack w).getLsbD 6 = w.p1 ∧ (pack w).getLsbD 5 = w.p2 ∧
    (pack w).getLsbD 4 = w.data.d1 ∧ (pack w).getLsbD 3 = w.p3 ∧ (pack w).getLsbD 2 = w.data.d2 ∧
    (pack w).getLsbD 1 = w.data.d3 ∧ (pack w).getLsbD 0 = w.data.d4 := by
  simp [pack, getLsbD_place, CodedBit.position, -BitVec.getLsbD_eq_getElem]

@[simp] theorem unpack_pack (w : CodedBits) : unpack (pack w) = w := by
  obtain ⟨-, hp1, hp2, hd1, hp3, hd2, hd3, hd4⟩ := getLsbD_pack w
  simp [unpack, codedBit, containerBit, CodedBit.position, -BitVec.getLsbD_eq_getElem, hp1, hp2, hd1, hp3,
    hd2, hd3, hd4]

theorem pack_unpack (cw : Codeword) : pack (unpack cw) = cw &&& 0x7F := by
  refine BitVec.eq_of_getLsbD_eq fun i hi => ?_
  interval_cases i <;> simp [pack, getLsbD_place, unpack, codedBit, containerBit, CodedBit.position,
    -BitVec.getLsbD_eq_getElem]

/-- Settles O32: `pack` sets each bit at its place, where `unpack` reads it. -/
theorem layoutIsOneTransform : Obligations.LayoutIsOneTransform := by
  refine ⟨fun w => ⟨unpack_pack w, getLsbD_pack w⟩, pack_unpack, rfl, fun k cw => ?_⟩
  obtain ⟨hlow, hhigh⟩ := k.position_bounds
  exact ⟨hlow, hhigh, rfl⟩

/-! ### Linearity -/

theorem codedBit_xor (x y : Codeword) (k : CodedBit) : codedBit (x ^^^ y) k = (codedBit x k ^^ codedBit y k) :=
  BitVec.getLsbD_xor

theorem append_ofBool_xor_three (a b c a' b' c' : Bool) :
    BitVec.ofBool (a ^^ a') ++ BitVec.ofBool (b ^^ b') ++ BitVec.ofBool (c ^^ c') =
      (BitVec.ofBool a ++ BitVec.ofBool b ++ BitVec.ofBool c) ^^^
        (BitVec.ofBool a' ++ BitVec.ofBool b' ++ BitVec.ofBool c') := by
  simp only [BitVec.xor_append, BitVec.ofBool_xor_ofBool]

theorem append_ofBool_xor_four (a b c d a' b' c' d' : Bool) :
    BitVec.ofBool (a ^^ a') ++ BitVec.ofBool (b ^^ b') ++ BitVec.ofBool (c ^^ c') ++ BitVec.ofBool (d ^^ d') =
      (BitVec.ofBool a ++ BitVec.ofBool b ++ BitVec.ofBool c ++ BitVec.ofBool d) ^^^
        (BitVec.ofBool a' ++ BitVec.ofBool b' ++ BitVec.ofBool c' ++ BitVec.ofBool d') := by
  simp only [BitVec.xor_append, BitVec.ofBool_xor_ofBool]

theorem syndrome_xor (x y : Codeword) : syndrome (x ^^^ y) = syndrome x ^^^ syndrome y := by
  refine Eq.trans ?_ (append_ofBool_xor_three (check3 (unpack x)) (check2 (unpack x)) (check1 (unpack x))
    (check3 (unpack y)) (check2 (unpack y)) (check1 (unpack y)))
  simp only [syndrome, check1, check2, check3, parity1, parity2, parity3, unpack, codedBit_xor, Bool.xor_assoc,
    Bool.xor_left_comm]

theorem nibbleOf_unpack_xor (x y : Codeword) :
    nibbleOf (unpack (x ^^^ y)).data = nibbleOf (unpack x).data ^^^ nibbleOf (unpack y).data := by
  simp only [nibbleOf, unpack, codedBit_xor]
  exact append_ofBool_xor_four _ _ _ _ _ _ _ _

theorem encodeNibble_xor (m n : Nibble) : encodeNibble (m ^^^ n) = encodeNibble m ^^^ encodeNibble n := by
  revert m n; decide

/-! ### Syndromes -/

theorem syndrome_encodeNibble (n : Nibble) : syndrome (encodeNibble n) = 0 := by
  revert n; decide

/-- Flipping the bit of position `k` alone gives the syndrome `k` (R47, R49). -/
theorem syndrome_positionMask (k : Syndrome) : syndrome (positionMask k.toNat) = k := by
  revert k; decide

theorem syndrome_positionMask_position (k : CodedBit) :
    syndrome (positionMask k.position) = BitVec.ofNat 3 k.position := by
  cases k <;> rfl

/-- Settles O33: the parity bits stand where `pack` puts them, and by linearity a flip adds the syndrome of its
mask, which is the position itself. -/
theorem parityBitsCheckTheirPositions : Obligations.ParityBitsCheckTheirPositions := by
  constructor
  · intro n
    obtain ⟨-, hp1, hp2, -, hp3, -⟩ := getLsbD_pack
      { p1 := parity1 (dataBits n), p2 := parity2 (dataBits n), p3 := parity3 (dataBits n), data := dataBits n }
    exact ⟨hp1, hp2, hp3⟩
  · intro cw k j hlow hhigh
    have hj : j - 1 < 3 := by omega
    rw [syndrome_xor, syndrome_positionMask_position, BitVec.getLsbD_xor, BitVec.getLsbD_ofNat]
    simp [hj]

/-! ### Correction -/

theorem correctCodeword_of_syndrome_eq_zero (c : Codeword) (h : syndrome c = 0) : correctCodeword c = c :=
  if_pos h

theorem correctCodeword_of_syndrome_ne_zero (c : Codeword) (h : syndrome c ≠ 0) :
    correctCodeword c = c ^^^ positionMask (syndrome c).toNat :=
  if_neg h

/-- A nonzero syndrome `s` flips container bit `7 − s` and no other (R49). -/
theorem getLsbD_correctCodeword (c : Codeword) (h : syndrome c ≠ 0) (i : Nat) (hi : i < 8) :
    (correctCodeword c).getLsbD i = (c.getLsbD i ^^ (i == 7 - (syndrome c).toNat)) := by
  rw [correctCodeword_of_syndrome_ne_zero c h, BitVec.getLsbD_xor, getLsbD_positionMask _ i hi]

theorem getLsbD_seven_correctCodeword (c : Codeword) : (correctCodeword c).getLsbD 7 = c.getLsbD 7 := by
  by_cases h : syndrome c = 0
  · rw [correctCodeword_of_syndrome_eq_zero c h]
  · have hs : (syndrome c).toNat ≠ 0 := fun h0 => h (BitVec.eq_of_toNat_eq h0)
    have hbit : 7 ≠ 7 - (syndrome c).toNat := by omega
    rw [getLsbD_correctCodeword c h 7 (by decide), beq_eq_false_iff_ne.2 hbit, Bool.xor_false]

/-- The flipped bit has the syndrome it is to cancel. -/
theorem syndrome_correctCodeword (c : Codeword) : syndrome (correctCodeword c) = 0 := by
  by_cases h : syndrome c = 0
  · rw [correctCodeword_of_syndrome_eq_zero c h, h]
  · rw [correctCodeword_of_syndrome_ne_zero c h, syndrome_xor, syndrome_positionMask]
    exact BitVec.xor_self

/-- Settles O34: a nonzero syndrome is a position from 1 to 7, and the mask of that position is what is flipped. -/
theorem syndromeNamesTheFlippedBit : Obligations.SyndromeNamesTheFlippedBit := fun c =>
  ⟨correctCodeword_of_syndrome_eq_zero c, getLsbD_correctCodeword c, getLsbD_seven_correctCodeword c,
   syndrome_correctCodeword c⟩

/-! ### Decoding a valid codeword with an error pattern -/

theorem nibbleOf_unpack_encodeNibble (n : Nibble) : nibbleOf (unpack (encodeNibble n)).data = n := by
  revert n; decide

/-- A valid codeword adds nothing to the syndrome, so the correction is that of the error pattern. -/
theorem correctCodeword_encodeNibble_xor (n : Nibble) (e : Codeword) :
    correctCodeword (encodeNibble n ^^^ e) = encodeNibble n ^^^ correctCodeword e := by
  have hsyn : syndrome (encodeNibble n ^^^ e) = syndrome e := by
    rw [syndrome_xor, syndrome_encodeNibble]
    exact BitVec.zero_xor
  rw [correctCodeword, correctCodeword, hsyn]
  split
  next => rfl
  next => exact BitVec.xor_assoc _ _ _

theorem decodeNibble_encodeNibble_xor (n : Nibble) (e : Codeword) :
    decodeNibble (encodeNibble n ^^^ e) = n ^^^ decodeNibble e := by
  rw [decodeNibble, correctCodeword_encodeNibble_xor, nibbleOf_unpack_xor, nibbleOf_unpack_encodeNibble, decodeNibble]

/-- A container with syndrome 0 and bit 7 clear is the codeword of its data bits (R50). -/
theorem encodeNibble_decodeNibble (cw : Codeword) :
    syndrome cw = 0 → cw.getLsbD 7 = false → encodeNibble (decodeNibble cw) = cw := by
  revert cw; decide

/-- Exactly the error patterns of weight 0 and 1 decode to the zero nibble. -/
theorem decodeNibble_eq_zero_iff (e : Codeword) : decodeNibble e = 0 ↔ Claim.weight e ≤ 1 := by
  revert e; decide

/-! ### The perfect code -/

theorem valid_iff (cw : Codeword) : Claim.Valid cw ↔ syndrome cw = 0 ∧ cw.getLsbD 7 = false := by
  constructor
  · rintro ⟨n, rfl⟩
    exact ⟨syndrome_encodeNibble n, (getLsbD_pack _).1⟩
  · rintro ⟨hsyn, htop⟩
    exact ⟨decodeNibble cw, encodeNibble_decodeNibble cw hsyn htop⟩

theorem weight_encodeNibble_of_ne_zero (n : Nibble) : n ≠ 0 → 3 ≤ Claim.weight (encodeNibble n) := by
  revert n; decide

/-- The distance of two codewords is the weight of the codeword of their difference. -/
theorem weight_encodeNibble_xor_of_ne (m n : Nibble) (h : m ≠ n) :
    3 ≤ Claim.weight (encodeNibble m ^^^ encodeNibble n) := by
  rw [← encodeNibble_xor]
  exact weight_encodeNibble_of_ne_zero _ (mt BitVec.xor_eq_zero_iff.1 h)

/-- The codeword within distance 1 of `c` is that of the nibble `c` decodes to, and no other. -/
theorem weight_xor_encodeNibble_le_one_iff (c : Codeword) (m : Nibble) :
    Claim.weight (c ^^^ encodeNibble m) ≤ 1 ↔ m = decodeNibble c := by
  rw [← decodeNibble_eq_zero_iff, BitVec.xor_comm, decodeNibble_encodeNibble_xor]
  exact BitVec.xor_eq_zero_iff

theorem weight_le_seven (e : Codeword) : Claim.weight e ≤ 7 :=
  List.length_filter_le _ (List.range 7)

theorem length_filter_weight_encodeNibble (k : Nat) :
    ((List.range 16).filter fun n => Claim.weight (encodeNibble (BitVec.ofNat 4 n)) == k).length =
      if k = 0 ∨ k = 7 then 1 else if k = 3 ∨ k = 4 then 7 else 0 := by
  by_cases hk : k < 8
  · revert k; decide
  · have hnone : ∀ e : Codeword, Claim.weight e ≠ k := fun e => by
      have hle := weight_le_seven e
      omega
    simp only [beq_eq_false_iff_ne.2 (hnone _), List.filter_false]
    grind

theorem length_filter_decodeNibble (n : Nibble) :
    ((List.range 128).filter fun c => decodeNibble (BitVec.ofNat 8 c) == n).length = 8 := by
  revert n; decide

/-- Settles O35: by linearity the distances are weights of codewords and the spheres of radius 1 are the decoding
regions; what is left are finite tables. -/
theorem validCodewordsFormAPerfectCode : Obligations.ValidCodewordsFormAPerfectCode :=
  ⟨by decide, valid_iff, weight_encodeNibble_xor_of_ne, length_filter_weight_encodeNibble,
   fun c => ⟨decodeNibble c, weight_xor_encodeNibble_le_one_iff c⟩, length_filter_decodeNibble⟩

end Sys2Proof.Machine
end

section
/-! SUPPORT. Assembling a line by its parts: the mnemonic, then one operand, a pair of operands or a list of
bytes, each read through the tokens of its characters (spec/30_encoding.md R57). -/

namespace Sys2Proof.Machine

/-! ### The mnemonic and what follows it -/

/-- The operation of a mnemonic with the tokens of its operands (R57). -/
def parseOperands (k : Mnemonic) (ts : List Token) : Except AsmError (Option Instr) :=
  match k with
  | .enc4 => (parseOne 4 ts).map fun n => some (.enc4 n)
  | .enc8 => (parseOne 8 ts).map fun b => some (.enc8 b)
  | .encbuf => (parseBuffer ts).map fun inBuf => some (.encbuf inBuf)
  | .syn => (parseOne 8 ts).map fun c => some (.syn c)
  | .dec7 => (parseOne 8 ts).map fun c => some (.dec7 c)
  | .dec16 => (parsePair ts).map fun p => some (.dec16 p.1 p.2)
  | .decbuf => (parseBuffer ts).map fun inBuf => some (.decbuf inBuf)
  | .rsv7 => if ts = [] then .ok (some .rsv7) else .error .badOperands

/-- No two mnemonics share a spelling, so the first match is the one spelt. -/
theorem parseOperation_spell (k : Mnemonic) (ts : List Token) :
    parseOperation (.word k.spell :: ts) = parseOperands k ts := by
  cases k <;> rfl

theorem assembleLine_spell_blank (k : Mnemonic) (operands : List Char) :
    assembleLine (k.spell ++ ' ' :: operands) = parseOperands k (lexLine operands []) := by
  rw [assembleLine, lexLine_word_blank _ _ k.isWord_spell, parseOperation_spell]

/-! ### Operands of fixed width -/

theorem parseOne_lexLine (w : Nat) (cs tail : List Char) (hcs : IsWord cs) (htail : IsLineEnd tail) :
    parseOne w (lexLine (cs ++ tail) []) = parseOperand w cs := by
  rw [lexLine_word_end cs tail hcs htail, parseOne]

theorem parsePair_lexLine (x y tail : List Char) (hx : IsWord x) (hy : IsWord y) (htail : IsLineEnd tail) :
    parsePair (lexLine (x ++ ',' :: ' ' :: (y ++ tail)) []) =
      (parseOperand 8 x).bind fun a => (parseOperand 8 y).map (a, ·) := by
  rw [lexLine_word_comma x _ hx, lexLine_blank, lexLine_word_end y tail hy htail, parsePair]

/-! ### Lists of bytes -/

/-- A byte that is not the last one of its list. -/
theorem parseBytes_lexLine_comma (cs rest : List Char) (hcs : IsWord cs) :
    parseBytes (lexLine (cs ++ ',' :: rest) []) =
      (parseOperand 8 cs).bind fun b => (parseBytes (lexLine rest [])).map (b :: ·) := by
  rw [lexLine_word_comma cs rest hcs, parseBytes]

/-- The last byte of a list. -/
theorem parseBytes_lexLine_rbrack (cs tail : List Char) (hcs : IsWord cs) (htail : IsLineEnd tail) :
    parseBytes (lexLine (cs ++ ']' :: tail) []) = (parseOperand 8 cs).map ([·]) := by
  rw [lexLine_word_rbrack cs tail hcs, lexLine_lineEnd tail htail, parseBytes]

/-- After `[` the bytes decide, but for a list that its `]` closes at once, which has none. -/
theorem parseBuffer_lbrack (ts : List Token) (h : parseBytes ts ≠ .error .badOperands) :
    parseBuffer (.lbrack :: ts) = parseBytes ts := by
  have hts : ts ≠ [.rbrack] := by
    rintro rfl
    exact h rfl
  unfold parseBuffer
  split
  next heq => exact absurd (List.cons.inj heq).2 hts
  next heq => rw [(List.cons.inj heq).2]
  next hno => exact absurd rfl (hno ts)

/-- A list of bytes that begins with bytes that fit is rejected as its rest is. -/
theorem parseBytes_lexLine_of_fitting_before (before : List (List Char)) (rest : List Char) (e : AsmError)
    (hbefore : ∀ w ∈ before, ∃ u, parseInteger w = some u ∧ u < 256)
    (hrest : parseBytes (lexLine rest []) = .error e) :
    parseBytes (lexLine (before.flatMap (· ++ [',', ' ']) ++ rest) []) = .error e := by
  induction before with
  | nil => exact hrest
  | cons w before ih =>
    obtain ⟨u, hu, hfits⟩ := hbefore w (by simp)
    have htail := ih fun x hx => hbefore x (by simp [hx])
    have hline : (w :: before).flatMap (· ++ [',', ' ']) ++ rest =
        w ++ ',' :: ' ' :: (before.flatMap (· ++ [',', ' ']) ++ rest) := by simp
    rw [hline, parseBytes_lexLine_comma _ _ (isWord_of_parseInteger w u hu), lexLine_blank, htail,
      parseOperand_fits 8 w u hu hfits]
    rfl

/-! ### Spellings -/

theorem isWord_spellNat_toNat {w : Nat} (x : BitVec w) (hw : w ≤ 8) : IsWord (spellNat x.toNat) :=
  isWord_of_parseOperand w _ x (parseOperand_spellNat x hw)

theorem parseOne_spellNat {w : Nat} (x : BitVec w) (hw : w ≤ 8) :
    parseOne w (lexLine (spellNat x.toNat) []) = .ok x := by
  have h := parseOne_lexLine w _ [] (isWord_spellNat_toNat x hw) (.inl rfl)
  rwa [List.append_nil, parseOperand_spellNat x hw] at h

theorem parsePair_spellNat (x y : Byte) :
    parsePair (lexLine (spellNat x.toNat ++ ',' :: ' ' :: spellNat y.toNat) []) = .ok (x, y) := by
  have h := parsePair_lexLine _ _ [] (isWord_spellNat_toNat x le_rfl) (isWord_spellNat_toNat y le_rfl) (.inl rfl)
  rwa [List.append_nil, parseOperand_spellNat x le_rfl, parseOperand_spellNat y le_rfl] at h

theorem parseBytes_spellTail (b : Byte) (rest : Buffer) :
    parseBytes (lexLine (spellNat b.toNat ++ spellTail rest) []) = .ok (b :: rest) := by
  induction rest generalizing b with
  | nil =>
    rw [spellTail, parseBytes_lexLine_rbrack _ [] (isWord_spellNat_toNat b le_rfl) (.inl rfl),
      parseOperand_spellNat b le_rfl]
    rfl
  | cons c rest ih =>
    rw [spellTail, parseBytes_lexLine_comma _ _ (isWord_spellNat_toNat b le_rfl), lexLine_blank, ih c,
      parseOperand_spellNat b le_rfl]
    rfl

theorem parseBuffer_spellBuffer (inBuf : Buffer) : parseBuffer (lexLine (spellBuffer inBuf) []) = .ok inBuf := by
  cases inBuf with
  | nil => rfl
  | cons b rest =>
    have hbytes := parseBytes_spellTail b rest
    rw [spellBuffer, lexLine_lbrack, parseBuffer_lbrack _ (by simp [hbytes]), hbytes]

/-- Settles O46: the mnemonic selects the operand form, and each form reads its own spelling back; the form of
a buffer by induction on its bytes. -/
theorem assembleInvertsSpell : Obligations.AssembleInvertsSpell := by
  intro i
  cases i with
  | enc4 n => rw [spell, assembleLine_spell_blank, parseOperands, parseOne_spellNat n (by decide)]; rfl
  | enc8 b => rw [spell, assembleLine_spell_blank, parseOperands, parseOne_spellNat b le_rfl]; rfl
  | encbuf inBuf => rw [spell, assembleLine_spell_blank, parseOperands, parseBuffer_spellBuffer]; rfl
  | syn c => rw [spell, assembleLine_spell_blank, parseOperands, parseOne_spellNat c le_rfl]; rfl
  | dec7 c => rw [spell, assembleLine_spell_blank, parseOperands, parseOne_spellNat c le_rfl]; rfl
  | dec16 cHi cLo => rw [spell, assembleLine_spell_blank, parseOperands, parsePair_spellNat]; rfl
  | decbuf inBuf => rw [spell, assembleLine_spell_blank, parseOperands, parseBuffer_spellBuffer]; rfl
  | rsv7 => rfl

/-! ### Operands that do not fit -/

/-- A mnemonic that takes one 8-bit operand rejects what its operand is rejected for. -/
theorem parseOperands_byte_error (k : Mnemonic) (hk : k = .enc8 ∨ k = .syn ∨ k = .dec7) (ts : List Token)
    (e : AsmError) (h : parseOne 8 ts = .error e) : parseOperands k ts = .error e := by
  rcases hk with rfl | rfl | rfl <;> rw [parseOperands, h] <;> rfl

/-- A mnemonic that takes a list rejects what the bytes after its `[` are rejected for. -/
theorem parseOperands_buffer_error (k : Mnemonic) (hk : k = .encbuf ∨ k = .decbuf) (ts : List Token)
    (e : AsmError) (he : e ≠ .badOperands) (h : parseBytes ts = .error e) :
    parseOperands k (.lbrack :: ts) = .error e := by
  have hbuf : parseBuffer (.lbrack :: ts) = .error e := by rw [parseBuffer_lbrack ts (by simp [h, he]), h]
  rcases hk with rfl | rfl <;> rw [parseOperands, hbuf] <;> rfl

/-- Settles O47: the operand is one word of the line, and at each place the form of the operands reads it
after words that fit and before anything else, so its rejection is the line's. -/
theorem assemblerRejectsTooWideOperands : Obligations.AssemblerRejectsTooWideOperands := by
  intro cs v tail hv htail
  have hcs : IsWord cs := isWord_of_parseInteger cs v hv
  refine ⟨fun hwide => ?enc4, fun hwide => ?byte⟩
  case enc4 =>
    rw [assembleLine_spell_blank, parseOperands, parseOne_lexLine 4 cs tail hcs htail,
      parseOperand_tooWide 4 cs v hv hwide]
    rfl
  case byte =>
    have htoo : parseOperand 8 cs = .error (.operandTooWide 8 v) := parseOperand_tooWide 8 cs v hv hwide
    refine ⟨fun k hk => ?single, fun other u hu => ⟨?firstOfPair, fun hfits => ?secondOfPair⟩,
      fun k hk before hbefore => ?inList⟩
    case single =>
      rw [assembleLine_spell_blank]
      exact parseOperands_byte_error k hk _ _ (by rw [parseOne_lexLine 8 cs tail hcs htail, htoo])
    case firstOfPair =>
      rw [assembleLine_spell_blank, parseOperands,
        parsePair_lexLine cs other tail hcs (isWord_of_parseInteger other u hu) htail, htoo]
      rfl
    case secondOfPair =>
      rw [assembleLine_spell_blank, parseOperands,
        parsePair_lexLine other cs tail (isWord_of_parseInteger other u hu) hcs htail,
        parseOperand_fits 8 other u hu hfits, htoo]
      rfl
    case inList =>
      have hlist : ∀ rest, parseBytes (lexLine rest []) = .error (.operandTooWide 8 v) →
          assembleLine (k.spell ++ ' ' :: '[' :: (before.flatMap (· ++ [',', ' ']) ++ rest)) =
            .error (.operandTooWide 8 v) := by
        intro rest hrest
        rw [assembleLine_spell_blank, lexLine_lbrack]
        exact parseOperands_buffer_error k hk _ _ (by simp)
          (parseBytes_lexLine_of_fitting_before before rest _ hbefore hrest)
      constructor
      · apply hlist
        rw [parseBytes_lexLine_rbrack cs tail hcs htail, htoo]
        rfl
      · intro after
        apply hlist
        rw [parseBytes_lexLine_comma cs after hcs, htoo]
        rfl

end Sys2Proof.Machine
end

section
/-! SUPPORT. The encoder operations (spec/40_encoder.md R60 to R62). -/

namespace Sys2Proof.Machine

/-- An operation that can be presented and whose rule gives status OK logs its Result and counts itself; all else
is unchanged (R25). -/
theorem exec_of_perform_status_ok (i : Instr) (s : State) (r : Result) (hfault : s.fault = none)
    (hwf : i.wf s.config = true) (hr : perform i = .ok r) (hok : r.status = .ok) :
    exec i s = .next { s with opIndex := s.opIndex + 1, log := s.log ++ [r] } := by
  rw [exec_eq_conclude i s hwf, hr, conclude_ok r s hfault, State.record_of_ok s r hok]

/-- Settles O17: ENC4 is always presentable and gives status OK, and its packed bits are R60's concatenation. -/
theorem enc4DrivesTheCodeword : Obligations.Enc4DrivesTheCodeword := by
  intro n s hfault
  rw [← encodeNibble_eq]
  exact exec_of_perform_status_ok (.enc4 n) s (resultEnc4 n) hfault rfl rfl rfl

/-- Settles O18: as for ENC4, with the codeword of each half of the byte on its own port. -/
theorem enc8DrivesTheCodewordPair : Obligations.Enc8DrivesTheCodewordPair := by
  intro b s hfault
  rw [← encodeNibble_eq, ← encodeNibble_eq]
  exact exec_of_perform_status_ok (.enc8 b) s (resultEnc8 b) hfault rfl rfl rfl

/-- Bits 4, 2, 1 and 0 of a container are its data bits d1 to d4 (R45). -/
theorem nibbleOf_unpack_data (c : Codeword) :
    nibbleOf (unpack c).data = Claim.bit c 4 ++ Claim.bit c 2 ++ Claim.bit c 1 ++ Claim.bit c 0 := rfl

/-- The data bits of a codeword give the nibble back, so no two nibbles share one. -/
theorem encodeNibble_injective : Function.Injective encodeNibble :=
  Function.LeftInverse.injective (g := fun c => nibbleOf (unpack c).data) nibbleOf_unpack_encodeNibble

/-- Settles O36: the code is linear and systematic; injectivity is read off the data bits. -/
theorem encoderLaws : Obligations.EncoderLaws := by
  refine ⟨fun _ _ heq => encodeNibble_injective heq, encodeNibble_xor, fun n => ?_⟩
  have htop : (encodeNibble n).getLsbD 7 = false := (getLsbD_pack _).1
  have hdata := nibbleOf_unpack_encodeNibble n
  rw [nibbleOf_unpack_data] at hdata
  exact ⟨syndrome_encodeNibble n, htop, hdata⟩

end Sys2Proof.Machine
end

section
/-! SUPPORT. The decoder operations, by the coded bits alone and under an error pattern (spec/41_decoder.md
R63 to R68), and DECBUF by the coded bits alone (spec/42_buffer.md R70). -/

namespace Sys2Proof.Machine

/-! ### The Result each operation logs -/

theorem exec_syn_of_no_fault (c : Codeword) (s : State) (hfault : s.fault = none) :
    exec (.syn c) s = .next { s with opIndex := s.opIndex + 1, log := s.log ++ [resultSyn c] } :=
  exec_of_perform_status_ok (.syn c) s (resultSyn c) hfault rfl rfl rfl

theorem exec_dec7_of_no_fault (c : Codeword) (s : State) (hfault : s.fault = none) :
    exec (.dec7 c) s = .next { s with opIndex := s.opIndex + 1, log := s.log ++ [resultDec7 c] } :=
  exec_of_perform_status_ok (.dec7 c) s (resultDec7 c) hfault rfl rfl rfl

theorem exec_dec16_of_no_fault (cHi cLo : Codeword) (s : State) (hfault : s.fault = none) :
    exec (.dec16 cHi cLo) s = .next { s with opIndex := s.opIndex + 1, log := s.log ++ [resultDec16 cHi cLo] } :=
  exec_of_perform_status_ok (.dec16 cHi cLo) s (resultDec16 cHi cLo) hfault rfl rfl rfl

/-! ### Bit 7 is not read -/

theorem unpack_and_0x7F (c : Codeword) : unpack (c &&& 0x7F#8) = unpack c :=
  (congrArg unpack (pack_unpack c)).symm.trans (unpack_pack _)

/-- No coded bit stands at container bit 7 (R45). -/
theorem codedBit_0x80 (k : CodedBit) : codedBit 0x80 k = false := by
  cases k <;> rfl

theorem unpack_xor_0x80 (c : Codeword) : unpack (c ^^^ 0x80) = unpack c := by
  simp only [unpack, codedBit_xor, codedBit_0x80, Bool.xor_false]

theorem syndrome_congr {c d : Codeword} (h : unpack c = unpack d) : syndrome c = syndrome d := by
  rw [syndrome, syndrome, h]

theorem correctedFlag_congr {c d : Codeword} (h : unpack c = unpack d) : correctedFlag c = correctedFlag d := by
  rw [correctedFlag, correctedFlag, syndrome_congr h]

/-- The correction is chosen by the syndrome, and the data bits of a corrected codeword are those of the
codeword and of the flipped bit. -/
theorem decodeNibble_congr {c d : Codeword} (h : unpack c = unpack d) : decodeNibble c = decodeNibble d := by
  have hsyn := syndrome_congr h
  rw [decodeNibble, decodeNibble]
  by_cases hc : syndrome c = 0
  · rw [correctCodeword_of_syndrome_eq_zero c hc, correctCodeword_of_syndrome_eq_zero d (hsyn ▸ hc), h]
  · rw [correctCodeword_of_syndrome_ne_zero c hc, correctCodeword_of_syndrome_ne_zero d (hsyn ▸ hc),
      nibbleOf_unpack_xor, nibbleOf_unpack_xor, h, hsyn]

theorem decodeByte_congr {c c' d d' : Codeword} (hhi : unpack c = unpack c') (hlo : unpack d = unpack d') :
    decodeByte c d = decodeByte c' d' := by
  rw [decodeByte, decodeByte, decodeNibble_congr hhi, decodeNibble_congr hlo]

theorem resultSyn_congr {c d : Codeword} (h : unpack c = unpack d) : resultSyn c = resultSyn d := by
  rw [resultSyn, resultSyn, syndrome_congr h]

theorem resultDec7_congr {c d : Codeword} (h : unpack c = unpack d) : resultDec7 c = resultDec7 d := by
  rw [resultDec7, resultDec7, decodeNibble_congr h, correctedFlag_congr h, syndrome_congr h]

theorem resultDec16_congr {c c' d d' : Codeword} (hhi : unpack c = unpack c') (hlo : unpack d = unpack d') :
    resultDec16 c d = resultDec16 c' d' := by
  rw [resultDec16, resultDec16, decodeByte_congr hhi hlo, correctedFlag_congr hhi, correctedFlag_congr hlo]

/-- Settles O39: each Result is a function of the coded bits, which flips of bit 7 do not change. -/
theorem decodersIgnoreBitSeven : Obligations.DecodersIgnoreBitSeven := by
  intro c d s hfault
  have hc := unpack_xor_0x80 c
  have hd := unpack_xor_0x80 d
  refine ⟨⟨_, exec_syn_of_no_fault c s hfault, ?_⟩, ⟨_, exec_dec7_of_no_fault c s hfault, ?_⟩,
    ⟨_, exec_dec16_of_no_fault c d s hfault, ?_, ?_, ?_⟩⟩
  · rw [exec_syn_of_no_fault _ s hfault, resultSyn_congr hc]
  · rw [exec_dec7_of_no_fault _ s hfault, resultDec7_congr hc]
  · rw [exec_dec16_of_no_fault _ _ s hfault, resultDec16_congr hc rfl]
  · rw [exec_dec16_of_no_fault _ _ s hfault, resultDec16_congr rfl hd]
  · rw [exec_dec16_of_no_fault _ _ s hfault, resultDec16_congr hc hd]

/-! ### DECBUF -/

theorem decodePairs_map_and_0x7F (buf : Buffer) : decodePairs (buf.map (· &&& 0x7F#8)) = decodePairs buf := by
  induction buf using decodePairs.induct with
  | case1 h l rest ih =>
    rw [List.map_cons, List.map_cons, decodePairs, decodePairs, ih,
      decodeByte_congr (unpack_and_0x7F h) (unpack_and_0x7F l)]
  | case2 h => rfl
  | case3 => rfl

/-- Clearing bit 7 of every byte changes neither the length of a buffer nor what its pairs decode to. -/
theorem exec_decbuf_map_and_0x7F (buf : Buffer) (s : State) :
    exec (.decbuf (buf.map (· &&& 0x7F#8))) s = exec (.decbuf buf) s := by
  have hresult : perform (.decbuf (buf.map (· &&& 0x7F#8))) = perform (.decbuf buf) := by
    rw [perform_eq, perform_eq, ruleResult, ruleResult, List.length_map, decodePairs_map_and_0x7F]
  show concludeBuffer _ (perform (.decbuf (buf.map (· &&& 0x7F#8)))) s = concludeBuffer _ (perform (.decbuf buf)) s
  rw [hresult, concludeBuffer, concludeBuffer, List.length_map]

/-- Settles O44: both buffers do what their common image with bit 7 cleared does. -/
theorem decbufIgnoresBitSeven : Obligations.DecbufIgnoresBitSeven := by
  intro x y s h
  rw [← exec_decbuf_map_and_0x7F x, h, exec_decbuf_map_and_0x7F]

/-! ### A valid codeword with an error pattern -/

theorem syndrome_encodeNibble_xor (n : Nibble) (e : Codeword) : syndrome (encodeNibble n ^^^ e) = syndrome e := by
  rw [syndrome_xor, syndrome_encodeNibble]
  exact BitVec.zero_xor

theorem correctedFlag_eq_zero_iff (c : Codeword) : correctedFlag c = 0 ↔ syndrome c = 0 := by
  by_cases h : syndrome c = 0 <;> simp [correctedFlag, h]

/-- By linearity DEC7 gives the flag and the syndrome of the error pattern alone, and a nibble that is wrong by
what the pattern decodes to. -/
theorem resultDec7_encodeNibble_xor (n : Nibble) (e : Codeword) :
    resultDec7 (encodeNibble n ^^^ e) =
      { status := .ok, nOut := some (n ^^^ decodeNibble e), corrected := some (correctedFlag e),
        s := some (syndrome e) } := by
  simp only [resultDec7, correctedFlag, decodeNibble_encodeNibble_xor, syndrome_encodeNibble_xor]

theorem decodeNibble_encodeNibble (n : Nibble) : decodeNibble (encodeNibble n) = n := by
  rw [decodeNibble, correctCodeword_of_syndrome_eq_zero _ (syndrome_encodeNibble n), nibbleOf_unpack_encodeNibble]

theorem correctedFlag_encodeNibble (n : Nibble) : correctedFlag (encodeNibble n) = 0 :=
  (correctedFlag_eq_zero_iff _).2 (syndrome_encodeNibble n)

/-- Container bit `i` is position `7 − i` (R46). -/
theorem positionMask_seven_sub (i : Nat) (hi : i < 7) : positionMask (7 - i) = 1#8 <<< i := by
  rw [positionMask, containerBit, Nat.sub_sub_self hi.le]

/-- A position is never the syndrome of no error. -/
theorem ofNat_seven_sub_ne_zero (i : Nat) (hi : i < 7) : BitVec.ofNat 3 (7 - i) ≠ 0 := by
  revert i; decide

theorem syndrome_one_shiftLeft (i : Nat) (hi : i < 7) : syndrome (1#8 <<< i) = BitVec.ofNat 3 (7 - i) := by
  have hpos : (BitVec.ofNat 3 (7 - i)).toNat = 7 - i := by
    rw [BitVec.toNat_ofNat]
    omega
  rw [← positionMask_seven_sub i hi, ← hpos, syndrome_positionMask, hpos]

theorem weight_one_shiftLeft (i : Nat) (hi : i < 7) : Claim.weight (1#8 <<< i) ≤ 1 := by
  revert i; decide

/-- One flipped coded bit is corrected, and the syndrome is its position (R49). -/
theorem resultDec7_encodeNibble_xor_one_shiftLeft (n : Nibble) (i : Nat) (hi : i < 7) :
    resultDec7 (encodeNibble n ^^^ (1#8 <<< i)) =
      { status := .ok, nOut := some n, corrected := some 1, s := some (BitVec.ofNat 3 (7 - i)) } := by
  have hnibble : decodeNibble (1#8 <<< i) = 0 := (decodeNibble_eq_zero_iff _).2 (weight_one_shiftLeft i hi)
  have hsyn := syndrome_one_shiftLeft i hi
  have hflag : correctedFlag (1#8 <<< i) = 1 := by
    rw [correctedFlag, hsyn, if_neg (ofNat_seven_sub_ne_zero i hi)]
  rw [resultDec7_encodeNibble_xor, hnibble, hflag, hsyn]
  simp

theorem resultDec7_encodeNibble (n : Nibble) :
    resultDec7 (encodeNibble n) = { status := .ok, nOut := some n, corrected := some 0, s := some 0 } := by
  rw [resultDec7, decodeNibble_encodeNibble, correctedFlag_encodeNibble, syndrome_encodeNibble]

/-- The codeword pair of a byte decodes to the byte. -/
theorem resultDec16_codewords (b : Byte) :
    resultDec16 (encodeNibble (highNibble b)) (encodeNibble (lowNibble b)) =
      { status := .ok, bOut := some b, correctedHi := some 0, correctedLo := some 0 } := by
  obtain ⟨hjoin, -⟩ := byteIsItsTwoNibbles.1 b
  rw [resultDec16, decodeByte, decodeNibble_encodeNibble, decodeNibble_encodeNibble, correctedFlag_encodeNibble,
    correctedFlag_encodeNibble, hjoin]

/-- Settles O37: the Results of the first three laws are those of a codeword with no error or one, and the
fourth is that the Results are functions of the coded bits. -/
theorem decoderLaws : Obligations.DecoderLaws := by
  intro s hfault
  refine ⟨fun n => ?stable, fun n i hi => ?corrects, fun b => ?roundTrip, fun c d => ?bitSeven⟩
  case stable => rw [exec_dec7_of_no_fault _ s hfault, resultDec7_encodeNibble]
  case corrects =>
    rw [exec_dec7_of_no_fault _ s hfault, resultDec7_encodeNibble_xor_one_shiftLeft n i hi]
  case roundTrip => rw [exec_dec16_of_no_fault _ _ s hfault, resultDec16_codewords]
  case bitSeven =>
    obtain ⟨⟨_, hsyn, hsyn'⟩, ⟨_, hdec, hdec'⟩, _, hhi, hhi', -⟩ := decodersIgnoreBitSeven c d s hfault
    obtain ⟨-, -, _, hlo, -, hlo', -⟩ := decodersIgnoreBitSeven d c s hfault
    exact ⟨hsyn'.trans hsyn.symm, hdec'.trans hdec.symm, hhi'.trans hhi.symm, hlo'.trans hlo.symm⟩

/-- The patterns of coded bits that set no flag are the sixteen codewords. -/
theorem filter_correctedFlag_perm_codewords :
    ((List.range 128).filter fun e => correctedFlag (BitVec.ofNat 8 e) == 0).Perm
      ((List.range 16).map fun n => (encodeNibble (BitVec.ofNat 4 n)).toNat) := by
  decide

/-- So the patterns of one weight that set no flag are counted as the codewords of that weight (R50, R66). -/
theorem length_filter_weight_unflagged (w : Nat) :
    ((List.range 128).filter fun e =>
        Claim.weight (BitVec.ofNat 8 e) == w && correctedFlag (BitVec.ofNat 8 e) == 0).length =
      if w = 0 ∨ w = 7 then 1 else if w = 3 ∨ w = 4 then 7 else 0 := by
  rw [← List.filter_filter, (filter_correctedFlag_perm_codewords.filter _).length_eq, List.filter_map,
    List.length_map, ← length_filter_weight_encodeNibble w]
  simp only [Function.comp_def, BitVec.ofNat_toNat, BitVec.setWidth_eq]

/-- Settles O38: the nibble is wrong by what the pattern decodes to, which is zero for weight 0 and 1 only; the
flag is the pattern's own, and the patterns that set none are the valid codewords. -/
theorem twoOrMoreErrorsDecodeWrongSilently : Obligations.TwoOrMoreErrorsDecodeWrongSilently := by
  refine ⟨fun n e s hfault htop => ?_, length_filter_weight_unflagged⟩
  refine ⟨n ^^^ decodeNibble e, correctedFlag e, syndrome e, ?_, ?_, ?_⟩
  · rw [exec_dec7_of_no_fault _ s hfault, resultDec7_encodeNibble_xor]
  · rw [← decodeNibble_eq_zero_iff]
    exact xor_left_eq_self_iff
  · rw [correctedFlag_eq_zero_iff, valid_iff]
    exact (and_iff_left htop).symm

/-! ### The rules in their bit formulas -/

/-- Settles O19: SYN is always presentable and gives status OK, and the model's check bits are R64's. -/
theorem synDrivesTheSyndrome : Obligations.SynDrivesTheSyndrome := by
  intro c s hfault
  rw [exec_syn_of_no_fault c s hfault, resultSyn, syndrome_eq]

/-- Correction flips coded bit `i` exactly when the syndrome is its position `7 − i` (R49). -/
theorem bit_corrected (c : Codeword) (i : Nat) (hi : i < 7) :
    Claim.bit (Claim.corrected c) i =
      Claim.bit c i ^^^ BitVec.ofBool (Claim.syndromeOf c == BitVec.ofNat 3 (7 - i)) := by
  rw [← correctCodeword_eq, ← syndrome_eq, Claim.bit, Claim.bit, BitVec.ofBool_xor_ofBool]
  congr 1
  by_cases hc : syndrome c = 0
  · rw [correctCodeword_of_syndrome_eq_zero c hc, hc, beq_eq_false_iff_ne.2 (ofNat_seven_sub_ne_zero i hi).symm,
      Bool.xor_false]
  · have hpos : (i == 7 - (syndrome c).toNat) = (syndrome c == BitVec.ofNat 3 (7 - i)) := by
      rw [Bool.eq_iff_iff, beq_iff_eq, beq_iff_eq, BitVec.toNat_eq, BitVec.toNat_ofNat]
      omega
    rw [getLsbD_correctCodeword c hc i (by omega), hpos]

/-- The closed form of R65. -/
theorem nibble_closed_form (c : Codeword) :
    Claim.nibble c =
      (Claim.bit c 4 ^^^ BitVec.ofBool (Claim.syndromeOf c == 3))
        ++ (Claim.bit c 2 ^^^ BitVec.ofBool (Claim.syndromeOf c == 5))
        ++ (Claim.bit c 1 ^^^ BitVec.ofBool (Claim.syndromeOf c == 6))
        ++ (Claim.bit c 0 ^^^ BitVec.ofBool (Claim.syndromeOf c == 7)) := by
  rw [Claim.nibble, bit_corrected c 4 (by decide), bit_corrected c 2 (by decide), bit_corrected c 1 (by decide),
    bit_corrected c 0 (by decide)]
  rfl

/-- Settles O20: the model's functions are R65's formulas, and each data bit is flipped by its own syndrome. -/
theorem dec7CorrectsAndDecodes : Obligations.Dec7CorrectsAndDecodes := by
  intro c s hfault
  refine ⟨?_, nibble_closed_form c⟩
  rw [exec_dec7_of_no_fault c s hfault, resultDec7, decodeNibble_eq, correctedFlag_eq, syndrome_eq]

/-- Settles O21: as for DEC7, with each codeword of the pair decoded by itself. -/
theorem dec16DecodesBothHalves : Obligations.Dec16DecodesBothHalves := by
  intro cHi cLo s hfault
  rw [exec_dec16_of_no_fault cHi cLo s hfault, resultDec16, decodeByte, joinNibbles, decodeNibble_eq,
    decodeNibble_eq, correctedFlag_eq, correctedFlag_eq]

end Sys2Proof.Machine
end

section
/-! SUPPORT. The buffer operations (spec/42_buffer.md R69 to R73), on the list functions of Laws/Buffers.lean. -/

namespace Sys2Proof.Machine

/-! ### The Result each operation logs -/

theorem exec_encbuf_of_admits (inBuf : Buffer) (s : State) (hfault : s.fault = none)
    (hadmits : s.config.admits inBuf.length = true) :
    exec (.encbuf inBuf) s = .next { s with
      opIndex := s.opIndex + 1
      log := s.log ++ [bufferResult (inBuf.flatMap codewordPair)] } :=
  exec_of_perform_status_ok (.encbuf inBuf) s _ hfault hadmits (resultEncbuf_eq inBuf) rfl

theorem exec_decbuf_of_even (inBuf : Buffer) (s : State) (hfault : s.fault = none)
    (hadmits : s.config.admits inBuf.length = true) (heven : inBuf.length % 2 = 0) :
    exec (.decbuf inBuf) s = .next { s with
      opIndex := s.opIndex + 1
      log := s.log ++ [bufferResult (decodePairs inBuf)] } :=
  exec_of_perform_status_ok (.decbuf inBuf) s _ hfault hadmits (resultDecbuf_even inBuf heven) rfl

theorem exec_decbuf_of_odd (inBuf : Buffer) (s : State) (hfault : s.fault = none)
    (hadmits : s.config.admits inBuf.length = true) (hodd : inBuf.length % 2 = 1) :
    exec (.decbuf inBuf) s = .next { s with
      opIndex := s.opIndex + 1
      log := s.log ++ [raise .lengthMismatch]
      fault := some .lengthMismatch } := by
  have hr : perform (.decbuf inBuf) = .ok (raise .lengthMismatch) := resultDecbuf_odd inBuf hodd
  rw [exec_eq_conclude (.decbuf inBuf) s hadmits, hr, conclude_ok _ s hfault, State.record_of_raised s _ _ rfl]

/-- DECBUF hands back an `OUT` for even lengths only (R70). -/
theorem outBuf_ruleResult_decbuf (inBuf : Buffer) :
    (ruleResult (.decbuf inBuf)).outBuf = if inBuf.length % 2 = 0 then some (decodePairs inBuf) else none := by
  rw [ruleResult]
  split <;> rfl

/-! ### Contents and lengths -/

/-- Settles O22: ENCBUF logs the codeword pairs of the bytes in order, and the model's codewords are R60's. -/
theorem encbufEncodesEveryByte : Obligations.EncbufEncodesEveryByte := by
  intro inBuf s hfault hadmits
  refine ⟨_, exec_encbuf_of_admits inBuf s hfault hadmits, length_flatMap_codewordPair inBuf, fun i b hb => ?_⟩
  rw [← encodeNibble_eq, ← encodeNibble_eq]
  exact getElem?_flatMap_codewordPair inBuf i b hb

/-- Settles O23: an even length logs the decodings of the pairs in order, an odd one raises LENGTH_MISMATCH. -/
theorem decbufDecodesEveryPairOrRaises : Obligations.DecbufDecodesEveryPairOrRaises := by
  intro inBuf s hfault hadmits
  refine ⟨fun heven => ?_, exec_decbuf_of_odd inBuf s hfault hadmits⟩
  refine ⟨_, exec_decbuf_of_even inBuf s hfault hadmits heven, length_decodePairs inBuf, fun i h l hh hl => ?_⟩
  rw [← decodeNibble_eq, ← decodeNibble_eq]
  exact getElem?_decodePairs inBuf i h l hh hl

/-- Settles O42: an `OUT` of ENCBUF has the even length `2 * len(IN)`, and DECBUF of any even length is OK. -/
theorem bufferLengthLaws : Obligations.BufferLengthLaws := by
  constructor
  · intro inBuf out r hr hout
    obtain rfl := eq_ruleResult_of_perform _ r hr
    obtain rfl : inBuf.flatMap codewordPair = out := Option.some.inj hout
    have hlen := length_flatMap_codewordPair inBuf
    refine ⟨hlen, fun received hreceived => ⟨_, resultDecbuf_even received ?_, rfl⟩⟩
    omega
  · intro inBuf out r hr hout
    obtain rfl := eq_ruleResult_of_perform _ r hr
    rw [outBuf_ruleResult_decbuf, Option.ite_none_right_eq_some] at hout
    obtain ⟨-, hout⟩ := hout
    rw [← Option.some.inj hout]
    exact length_decodePairs inBuf

/-- Settles O45: an operation that completes only records its Result, which holds the whole `OUT` or, for a
DECBUF of odd length, the non-OK status alone. -/
theorem bufferOperationsAreAtomic : Obligations.BufferOperationsAreAtomic := by
  intro inBuf s s'
  constructor
  · intro hexec
    obtain ⟨hfault, hadmits, -⟩ := (exec_next_iff _ s s').1 hexec
    rw [exec_encbuf_of_admits inBuf s hfault hadmits] at hexec
    cases hexec
    exact ⟨rfl, _, rfl, length_flatMap_codewordPair inBuf⟩
  · intro hexec
    obtain ⟨hfault, hadmits, -⟩ := (exec_next_iff _ s s').1 hexec
    rcases Nat.mod_two_eq_zero_or_one inBuf.length with heven | hodd
    · rw [exec_decbuf_of_even inBuf s hfault hadmits heven] at hexec
      cases hexec
      exact ⟨rfl, .inl ⟨heven, _, rfl, length_decodePairs inBuf⟩⟩
    · rw [exec_decbuf_of_odd inBuf s hfault hadmits hodd] at hexec
      cases hexec
      exact ⟨rfl, .inr ⟨hodd, rfl⟩⟩

/-! ### The round trip under noise -/

/-- At most one coded bit of `received` differs from `sent`; bit 7 is free (R72). -/
def Correctable (sent received : Codeword) : Prop := Claim.weight (sent ^^^ received) ≤ 1

theorem decodeNibble_of_correctable {n : Nibble} {c : Codeword} (h : Correctable (encodeNibble n) c) :
    decodeNibble c = n := by
  rw [Correctable, BitVec.xor_comm, weight_xor_encodeNibble_le_one_iff] at h
  exact h.symm

theorem decodeByte_of_correctable {b : Byte} {cHi cLo : Codeword}
    (hhi : Correctable (encodeNibble (highNibble b)) cHi) (hlo : Correctable (encodeNibble (lowNibble b)) cLo) :
    decodeByte cHi cLo = b := by
  obtain ⟨hjoin, -⟩ := byteIsItsTwoNibbles.1 b
  rw [decodeByte, decodeNibble_of_correctable hhi, decodeNibble_of_correctable hlo, hjoin]

/-- Two received bytes per byte sent, each pair decoded by itself. -/
theorem decodePairs_of_correctable (buf received : Buffer)
    (h : List.Forall₂ Correctable (buf.flatMap codewordPair) received) : decodePairs received = buf := by
  induction buf generalizing received with
  | nil => cases h; rfl
  | cons b rest ih =>
    obtain _ | ⟨hhi, _ | ⟨hlo, hrest⟩⟩ := h
    rw [decodePairs, decodeByte_of_correctable hhi hlo, ih _ hrest]

/-- Settles O43: the `OUT` of ENCBUF has even length, so DECBUF of a buffer as long logs the decodings of its
pairs, and those of correctable codewords are the bytes sent. -/
theorem roundTripUnderCorrectableNoise : Obligations.RoundTripUnderCorrectableNoise := by
  intro buf received sent s s' t r hexec hlog hout hlen hnoise hfault hadmits
  obtain ⟨-, -, x, hx, rfl⟩ := (exec_next_iff _ s s').1 hexec
  obtain rfl := eq_ruleResult_of_perform _ x hx
  rw [State.getLast?_record_log] at hlog
  cases hlog
  obtain rfl : buf.flatMap codewordPair = sent := Option.some.inj hout
  have hcorrectable : List.Forall₂ Correctable (buf.flatMap codewordPair) received :=
    List.forall₂_iff_get.2 ⟨hlen.symm, fun i hi hi' =>
      hnoise i _ _ (List.getElem?_eq_getElem hi) (List.getElem?_eq_getElem hi')⟩
  have heven : received.length % 2 = 0 := by
    rw [hlen, length_flatMap_codewordPair, Nat.mul_mod_right]
  rw [exec_decbuf_of_even received t hfault hadmits heven, decodePairs_of_correctable buf received hcorrectable]
  rfl

end Sys2Proof.Machine
end

section
/-! SUPPORT. Which status each operation ends with, and that every operation ends with one
(spec/60_exceptions.md R74 to R84). -/

namespace Sys2Proof.Machine

/-! ### The status of each operation -/

/-- An operation ends in one of three ways: with OK, as a DECBUF of odd length with LENGTH_MISMATCH alone, or as
the reserved selector with ILLEGAL_OP alone (R74 to R76, R79). -/
theorem ruleResult_cases (i : Instr) :
    ((ruleResult i).status = .ok ∧ i ≠ .rsv7 ∧ ∀ inBuf, i = .decbuf inBuf → inBuf.length % 2 = 0) ∨
    (∃ inBuf, i = .decbuf inBuf ∧ inBuf.length % 2 = 1 ∧ ruleResult i = raise .lengthMismatch) ∨
    (i = .rsv7 ∧ ruleResult i = raise .illegalOp) := by
  cases i with
  | decbuf inBuf =>
    rcases Nat.mod_two_eq_zero_or_one inBuf.length with heven | hodd
    · exact .inl (by simp [ruleResult, heven])
    · exact .inr (.inl ⟨inBuf, rfl, hodd, by simp [ruleResult, hodd]⟩)
  | rsv7 => exact .inr (.inr ⟨rfl, rfl⟩)
  | _ => exact .inl ⟨rfl, nofun, nofun⟩

theorem status_ruleResult_eq_ok_iff (i : Instr) :
    (ruleResult i).status = .ok ↔ i ≠ .rsv7 ∧ ∀ inBuf, i = .decbuf inBuf → inBuf.length % 2 = 0 := by
  rcases ruleResult_cases i with ⟨hok, hcause⟩ | ⟨inBuf, rfl, hodd, hr⟩ | ⟨rfl, hr⟩
  · exact iff_of_true hok hcause
  · simp [hr, hodd]
  · simp [hr]

theorem status_ruleResult_eq_lengthMismatch_iff (i : Instr) :
    (ruleResult i).status = .raised .lengthMismatch ↔ ∃ inBuf, i = .decbuf inBuf ∧ inBuf.length % 2 = 1 := by
  rcases ruleResult_cases i with ⟨hok, -, heven⟩ | ⟨inBuf, rfl, hodd, hr⟩ | ⟨rfl, hr⟩
  · refine iff_of_false (by simp [hok]) ?_
    rintro ⟨inBuf, hi, hodd⟩
    exact absurd (heven inBuf hi) (by omega)
  · simp [hr, hodd]
  · simp [hr]

theorem status_ruleResult_eq_illegalOp_iff (i : Instr) :
    (ruleResult i).status = .raised .illegalOp ↔ i = .rsv7 := by
  rcases ruleResult_cases i with ⟨hok, hne, -⟩ | ⟨inBuf, rfl, -, hr⟩ | ⟨rfl, hr⟩
  · simp [hok, hne]
  · simp [hr]
  · simp [hr]

/-- A non-OK status is all that its Result records (R75 to R77). -/
theorem ruleResult_of_raised (i : Instr) (e : ErrorStatus) (h : (ruleResult i).status = .raised e) :
    ruleResult i = raise e := by
  rcases ruleResult_cases i with ⟨hok, -⟩ | ⟨inBuf, -, -, hr⟩ | ⟨-, hr⟩
  · cases hok.symm.trans h
  all_goals
    rw [hr, status_raise] at h
    rw [hr, Status.raised.inj h]

theorem Status.error?_eq_some_iff (st : Status) (e : ErrorStatus) : st.error? = some e ↔ st = .raised e := by
  cases st <;> simp

/-- The table of R74: the code of each status, and no status with the code 0b11. -/
theorem Status.code_table (st : Status) :
    (st = .ok → st.code = 0b00) ∧ (st.code = 0b01 ↔ st = .raised .lengthMismatch) ∧
      (st.code = 0b10 ↔ st = .raised .illegalOp) ∧ st.code ≠ 0b11 := by
  rcases st with _ | _ | _ <;> decide

/-! ### The statements about the status -/

/-- Settles O26: the codes are read off each status, and the causes off the three ways an operation ends. -/
theorem statusCodesAndTheirCauses : Obligations.StatusCodesAndTheirCauses := by
  intro i r hr
  obtain rfl := eq_ruleResult_of_perform i r hr
  obtain ⟨hok, hmismatch, hillegal, hreserved⟩ := (ruleResult i).status.code_table
  exact ⟨hok, hmismatch, hillegal, hreserved, (status_ruleResult_eq_lengthMismatch_iff i).1,
    (status_ruleResult_eq_illegalOp_iff i).1⟩

/-- Settles O27: the fault after an operation is the non-OK status of its Result, which then is that status
alone. -/
theorem lengthMismatchExactlyOnOddDecbuf : Obligations.LengthMismatchExactlyOnOddDecbuf := by
  intro i s s' hexec
  obtain ⟨hfault, -, r, hr, rfl⟩ := (exec_next_iff i s s').1 hexec
  obtain rfl := eq_ruleResult_of_perform i r hr
  rw [State.record_fault_of_no_fault s _ hfault, Status.error?_eq_some_iff, State.getLast?_record_log]
  exact ⟨status_ruleResult_eq_lengthMismatch_iff i, fun h => congrArg some (ruleResult_of_raised i _ h)⟩

/-- Settles O28: every rule gives its `ruleResult`, and two of the three ways an operation ends are not OK. -/
theorem noOtherExceptionExists : Obligations.NoOtherExceptionExists :=
  fun i => ⟨ruleResult i, perform_eq i, status_ruleResult_eq_ok_iff i⟩

/-- Settles O24: selector 0b111 is the row of `rsv7`, whose Result is ILLEGAL_OP alone. -/
theorem reservedSelectorIsIllegal : Obligations.ReservedSelectorIsIllegal := by
  constructor
  · intro p hop
    obtain ⟨-, -, -, -, -, -, -, hrsv7⟩ := everySelectorNamesItsRow p
    exact hrsv7 hop
  · intro s hfault
    have hr : perform .rsv7 = .ok (raise .illegalOp) := rfl
    rw [exec_eq_conclude .rsv7 s rfl, hr, conclude_ok _ s hfault, State.record_of_raised s _ _ rfl]
    rfl

/-! ### Every operation completes -/

/-- A presented operation within `MAX_BUF_LEN` is performed: its Result is recorded (R79, R98). -/
theorem step_of_wf (s : State) (p : Presented) (hfault : s.fault = none) (hp : s.run[s.opIndex]? = some p)
    (hwf : (decode p).wf s.config = true) : step s = .next (s.record (ruleResult (decode p))) :=
  (step_next_iff_record s _).2 ⟨p, _, hfault, hp, hwf, perform_eq _, rfl⟩

/-- Settles O11: the next state records the Result of the operation. -/
theorem everyPresentedOperationCompletes : Obligations.EveryPresentedOperationCompletes :=
  fun s p hfault hp hwf => ⟨_, step_of_wf s p hfault hp hwf⟩

theorem decode_eq_rsv7_iff (p : Presented) : decode p = .rsv7 ↔ p.op = 0b111 :=
  ⟨Laws.SelectorUnique.rsv7 p, reservedSelectorIsIllegal.1 p⟩

theorem decode_eq_decbuf_iff (p : Presented) (inBuf : Buffer) :
    decode p = .decbuf inBuf ↔ p.op = 0b110 ∧ p.inBuf = inBuf := by
  obtain ⟨-, -, -, -, -, -, hdecbuf, -⟩ := everySelectorNamesItsRow p
  constructor
  · intro h
    have hop : p.op = 0b110 := Laws.SelectorUnique.decbuf inBuf p h
    exact ⟨hop, Instr.decbuf.inj ((hdecbuf hop).symm.trans h)⟩
  · rintro ⟨hop, rfl⟩
    exact hdecbuf hop

/-- The order of R81: the selector alone decides ILLEGAL_OP, and a DECBUF then LENGTH_MISMATCH. -/
theorem error?_ruleResult_decode (p : Presented) :
    (ruleResult (decode p)).status.error? =
      if p.op = 0b111 then some .illegalOp
      else if p.op = 0b110 ∧ p.inBuf.length % 2 = 1 then some .lengthMismatch
      else none := by
  split_ifs with hrsv7 hodd
  · rw [Status.error?_eq_some_iff, status_ruleResult_eq_illegalOp_iff, decode_eq_rsv7_iff]
    exact hrsv7
  · obtain ⟨hop, hodd⟩ := hodd
    rw [Status.error?_eq_some_iff, status_ruleResult_eq_lengthMismatch_iff]
    exact ⟨p.inBuf, (decode_eq_decbuf_iff p _).2 ⟨hop, rfl⟩, hodd⟩
  · rw [Status.error?_eq_none, status_ruleResult_eq_ok_iff, Ne, decode_eq_rsv7_iff]
    refine ⟨hrsv7, fun inBuf hdecode => ?_⟩
    obtain ⟨hop, rfl⟩ := (decode_eq_decbuf_iff p inBuf).1 hdecode
    exact Nat.mod_two_ne_one.1 fun h => hodd ⟨hop, h⟩

/-- Settles O13: the fault after a step from a state without one is the non-OK status of the Result. -/
theorem selectorIsCheckedBeforeLength : Obligations.SelectorIsCheckedBeforeLength := by
  intro s p hfault hp hwf
  refine ⟨_, step_of_wf s p hfault hp hwf, ?_⟩
  rw [State.record_fault_of_no_fault s _ hfault, error?_ruleResult_decode]

/-! ### The block level -/

/-- At block level each operation gives its own Result, whatever stands before it (R83). -/
theorem performAll_eq (is : List Instr) : performAll is = .ok (is.map ruleResult) := by
  induction is with
  | nil => rfl
  | cons i is ih => exact (performAll_cons_ok_iff i is _).2 ⟨_, _, perform_eq i, ih, rfl⟩

/-- Settles O31: the Results of the list are the operations' own, position by position. -/
theorem blockGoesOnAfterAnError : Obligations.BlockGoesOnAfterAnError := by
  intro is
  refine ⟨_, performAll_eq is, List.length_map _, fun k i r hi hr => ?_⟩
  rw [List.getElem?_map, hi] at hr
  cases hr
  exact perform_eq i

end Sys2Proof.Machine
end
